-- ==== Sys2Proof/Word.lean ====
section
/-! DEFINITION. The one numeric type of the machine: a signed 64-bit word (00_scope.md R5, R6; 41_arithmetic.md R94). -/

namespace Sys2Proof

/-- A cell value, operand, program counter or relative base: `XLEN` = 64 bits (00_scope.md R5).
Read as a number it is `BitVec.toInt`, two's complement, in `i64Min .. i64Max`. -/
abbrev Word := BitVec 64

/-- `I64_MIN` = -2^63 (00_scope.md R6). -/
def i64Min : Int := -9223372036854775808

/-- `I64_MAX` = 2^63 - 1 (00_scope.md R6). -/
def i64Max : Int := 9223372036854775807

/-- `x` is one of the values of `I64` (00_scope.md R6). -/
abbrev InI64 (x : Int) : Prop := i64Min ≤ x ∧ x ≤ i64Max

/-- The word of an integer: the integer itself when it is in `I64`. -/
abbrev Word.ofInt (x : Int) : Word := BitVec.ofInt 64 x

/-- The number of addresses, 2^63: `Addr` is `0 .. 2^63-1` (00_scope.md R6, 20_memory.md R30). -/
def addrCount : Nat := 9223372036854775808

end Sys2Proof
end

