-- ==== Sys2Proof/Syntax.lean ====
section
/-! DEFINITION. The ten instructions as syntax, one constructor per row of spec/opcode_table.json (30_encoding.md R52, R56). -/

namespace Sys2Proof

/-- The addressing mode a mode digit selects (30_encoding.md R54). -/
inductive Mode where
  /-- Digit 0: the operand word is an address. -/
  | position
  /-- Digit 1: the operand word is the value. -/
  | immediate
  /-- Digit 2: the operand word is an offset from the relative base. -/
  | relative
  /-- A digit that selects no mode, 3 to 9 (30_encoding.md R58): no well-formed instruction holds it. -/
  | undefined (digit : Nat)
  deriving DecidableEq, Repr

/-- The role of an operand (30_encoding.md R52). -/
inductive Role where
  /-- R: the instruction uses the operand's value. -/
  | read
  /-- W: the instruction stores to the operand's address. -/
  | write
  deriving DecidableEq, Repr

/-- An instruction: its opcode and one addressing mode per operand, as the decoder of 30_encoding.md R65 returns them.
The operand words are cells of memory, fetched when the instruction executes (40_cycle_and_operands.md R73; log entry 10). -/
inductive Instr where
  /-- ADD, opcode 1 (41_arithmetic.md R90). -/
  | add (a b dst : Mode)
  /-- MUL, opcode 2 (41_arithmetic.md R91). -/
  | mul (a b dst : Mode)
  /-- IN, opcode 3 (44_io.md R105). -/
  | inp (dst : Mode)
  /-- OUT, opcode 4 (44_io.md R106). -/
  | out (a : Mode)
  /-- JT, opcode 5 (43_jump.md R100). -/
  | jt (a target : Mode)
  /-- JF, opcode 6 (43_jump.md R101). -/
  | jf (a target : Mode)
  /-- LT, opcode 7 (42_compare.md R95). -/
  | lt (a b dst : Mode)
  /-- EQ, opcode 8 (42_compare.md R96). -/
  | eq (a b dst : Mode)
  /-- ARB, opcode 9 (45_relbase_halt.md R112). -/
  | arb (a : Mode)
  /-- HALT, opcode 99 (45_relbase_halt.md R113). -/
  | halt
  deriving DecidableEq, Repr

end Sys2Proof
end

