-- ==== Sys2Proof/WellFormed.lean ====
section
/-! DEFINITION. Which terms of `Instr` are legal instructions (30_encoding.md R58, R59, R67). -/

namespace Sys2Proof

/-- A read operand takes modes 0, 1 and 2 (30_encoding.md R67). -/
def Mode.legalRead : Mode → Bool
  | .position => true
  | .immediate => true
  | .relative => true
  | .undefined _ => false

/-- A write operand takes modes 0 and 2: immediate is illegal as a write target (30_encoding.md R59, R67). -/
def Mode.legalWrite : Mode → Bool
  | .position => true
  | .immediate => false
  | .relative => true
  | .undefined _ => false

/-- The instruction is one of the 99 of 30_encoding.md R67. -/
def Instr.wellFormed : Instr → Bool
  | .add a b dst => a.legalRead && b.legalRead && dst.legalWrite
  | .mul a b dst => a.legalRead && b.legalRead && dst.legalWrite
  | .inp dst => dst.legalWrite
  | .out a => a.legalRead
  | .jt a target => a.legalRead && target.legalRead
  | .jf a target => a.legalRead && target.legalRead
  | .lt a b dst => a.legalRead && b.legalRead && dst.legalWrite
  | .eq a b dst => a.legalRead && b.legalRead && dst.legalWrite
  | .arb a => a.legalRead
  | .halt => true

end Sys2Proof
end

