-- ==== Sys2Proof/Decode.lean ====
section
/-! DEFINITION. The decoder and the encoder (30_encoding.md R50 to R66). Decoding is by decimal digits of one cell. -/

namespace Sys2Proof

/-- `iw rem 100`, the truncated remainder, for every word (30_encoding.md R53, 00_scope.md R6). -/
def opcodeOf (iw : Word) : Int := iw.toInt.tmod 100

/-- `digit_k(n) = (n div 10^k) mod 10` of a non-negative number (00_scope.md R6). -/
def decimalDigit (k n : Nat) : Nat := n / 10 ^ k % 10

/-- The mode a digit selects (30_encoding.md R54, R58). -/
def Mode.ofDigit : Nat → Mode
  | 0 => .position
  | 1 => .immediate
  | 2 => .relative
  | d => .undefined d

/-- The digit that selects a mode (30_encoding.md R54). -/
def Mode.digit : Mode → Nat
  | .position => 0
  | .immediate => 1
  | .relative => 2
  | .undefined d => d

/-- The mode of operand `i` (1, 2 or 3): digit `i + 1` of a non-negative instruction word (40_cycle_and_operands.md R74). -/
def modeOf (iw : Word) (i : Nat) : Mode := Mode.ofDigit (decimalDigit (i + 1) iw.toInt.toNat)

/-- The instruction of an opcode, given the modes of operands 1, 2 and 3; the digits the opcode has no operand for are
not used (30_encoding.md R56, R60). -/
def Instr.ofOpcode (op : Int) (m1 m2 m3 : Mode) : Option Instr :=
  if op = 1 then some (.add m1 m2 m3)
  else if op = 2 then some (.mul m1 m2 m3)
  else if op = 3 then some (.inp m1)
  else if op = 4 then some (.out m1)
  else if op = 5 then some (.jt m1 m2)
  else if op = 6 then some (.jf m1 m2)
  else if op = 7 then some (.lt m1 m2 m3)
  else if op = 8 then some (.eq m1 m2 m3)
  else if op = 9 then some (.arb m1)
  else if op = 99 then some .halt
  else none

/-- The instruction an instruction word selects by its opcode, its modes unchecked; none for an undefined opcode
(40_cycle_and_operands.md R72). The step checks the modes operand by operand (R74, R78). -/
def selectInstr (iw : Word) : Option Instr :=
  Instr.ofOpcode (opcodeOf iw) (modeOf iw 1) (modeOf iw 2) (modeOf iw 3)

/-- The opcode of an instruction (30_encoding.md R56). -/
def Instr.opcode : Instr → Nat
  | .add _ _ _ => 1
  | .mul _ _ _ => 2
  | .inp _ => 3
  | .out _ => 4
  | .jt _ _ => 5
  | .jf _ _ => 6
  | .lt _ _ _ => 7
  | .eq _ _ _ => 8
  | .arb _ => 9
  | .halt => 99

/-- The operands in order, each with its role and mode (30_encoding.md R52). -/
def Instr.operands : Instr → List (Role × Mode)
  | .add a b dst => [(.read, a), (.read, b), (.write, dst)]
  | .mul a b dst => [(.read, a), (.read, b), (.write, dst)]
  | .inp dst => [(.write, dst)]
  | .out a => [(.read, a)]
  | .jt a target => [(.read, a), (.read, target)]
  | .jf a target => [(.read, a), (.read, target)]
  | .lt a b dst => [(.read, a), (.read, b), (.write, dst)]
  | .eq a b dst => [(.read, a), (.read, b), (.write, dst)]
  | .arb a => [(.read, a)]
  | .halt => []

/-- The width in cells: the instruction word and one operand word per operand (30_encoding.md R50). -/
def Instr.width (i : Instr) : Nat := 1 + i.operands.length

/-- Why a word is no legal instruction (30_encoding.md R61). -/
inductive DecodeError where
  /-- The opcode `iw rem 100` is not one of the ten (30_encoding.md R57). -/
  | invalidOpcode (op : Int)
  /-- A mode digit 3 to 9 on an operand the opcode has (30_encoding.md R58). -/
  | invalidMode (digit : Nat)
  /-- Immediate mode on a write operand (30_encoding.md R59). -/
  | invalidWriteTarget
  deriving DecidableEq, Repr

/-- What the decoder finds wrong with one operand (30_encoding.md R65, the loop's body). -/
def operandError : Role × Mode → Option DecodeError
  | (_, .undefined d) => some (.invalidMode d)
  | (.write, .immediate) => some .invalidWriteTarget
  | _ => none

/-- The first thing wrong with the operands, in order (30_encoding.md R65). -/
def firstOperandError : List (Role × Mode) → Option DecodeError
  | [] => none
  | o :: rest => (operandError o).or (firstOperandError rest)

/-- The decoder of 30_encoding.md R65, total on `I64`: the legal instruction a word is, or the first failure by name. -/
def decode (iw : Word) : Except DecodeError Instr :=
  match selectInstr iw with
  | none => .error (.invalidOpcode (opcodeOf iw))
  | some i =>
    match firstOperandError i.operands with
    | some e => .error e
    | none => .ok i

/-- The mode digits of the operands as a number, the first operand's digit at weight 1. -/
def modeDigits : List (Role × Mode) → Nat
  | [] => 0
  | o :: rest => o.2.digit + 10 * modeDigits rest

/-- The canonical instruction word `op + 100*m_1 + 1000*m_2 + 10000*m_3`, absent digits 0 (30_encoding.md R66). -/
def encode (i : Instr) : Word := BitVec.ofNat 64 (i.opcode + 100 * modeDigits i.operands)

/-- The cells of an instruction with its operand words, instruction word first (30_encoding.md R50, R63). -/
def encodeCells (i : Instr) (operandWords : List Word) : List Word := encode i :: operandWords

/-- Cell `k` of an instruction laid out in 64-bit cells, the first cell lowest (log entry 15). -/
def tableCell (w k : Nat) : Word := BitVec.ofNat 64 (w / 2 ^ (64 * k))

/-- The instruction the decoder reads from an instruction whose bits are `w`, bit 0 the least significant bit of the
first cell. A cell is 64 bits, and every bit above `nbits` is 0, so `nbits` decides nothing (log entry 15). -/
def decodeTableWord (_nbits w : Nat) : Option Instr :=
  match decode (tableCell w 0) with
  | .ok i => some i
  | .error _ => none

end Sys2Proof
end

