-- ==== Sys2Proof/Config.lean ====
section
/-! DEFINITION. What an implementation fixes (00_scope.md R5): the parameters, the values the spec decides, and the one it leaves open. -/

namespace Sys2Proof

/-- `OVERFLOW_POLICY`: what an addition or multiplication does when the exact result is outside `I64`
(00_scope.md R5, 41_arithmetic.md R92, R93). -/
inductive OverflowPolicy where
  /-- Raise `ArithmeticOverflow`. -/
  | fault
  /-- Two's-complement wraparound. -/
  | wrap
  /-- The nearest end of `I64`. -/
  | saturate
  deriving DecidableEq, Repr

/-- The implementation parameters of 00_scope.md R5. -/
structure Config where
  /-- `OVERFLOW_POLICY`. -/
  overflowPolicy : OverflowPolicy
  /-- `MEM_INIT_FACTOR`: the initial extent as a multiple of the program length. The value 0 is left to the type and
  excluded by `Config.Conforms` (log entry 18). -/
  memInitFactor : Nat
  /-- `GROW`: the new extent from the old one and the address written (20_memory.md R34). -/
  grow : Nat → Nat → Nat
  /-- `MEM_MAX`: the number of cells the implementation can hold (20_memory.md R45). -/
  memMax : Nat
  /-- `PROG_MAX`: the longest program `new` accepts (70_reset_and_hazards.md R171). Values above `memMax` are left to
  the type and excluded by `Config.Conforms` (log entry 17). -/
  progMax : Nat

/-- The configurations claims may be made of. `GROW` returns a value greater than the address written, and no more
cells are held than there are addresses (20_memory.md R34, R45). The initial extent covers the program: 00_scope.md R5
gives `MEM_INIT_FACTOR` no lower bound, and 10_state.md R24 (I6) needs one (DEDUCED; log entry 18). No program is accepted
that memory cannot hold: 00_scope.md R5 gives `PROG_MAX` no upper bound (DESIGN CHOICE; log entry 17). -/
abbrev Config.Conforms (c : Config) : Prop :=
  (∀ extent a, extent ≤ a → a < c.grow extent a) ∧ c.memMax ≤ addrCount ∧ c.progMax ≤ c.memMax ∧ 1 ≤ c.memInitFactor

/-- By how much `MEM_INIT_FACTOR` of this hardware exceeds 1: OPEN in 00_scope.md R5, nothing is known of it (log
entry 6). -/
opaque Config.chipExtraFactor : Nat

/-- `MEM_INIT_FACTOR` of this hardware: any factor from 1 on, so that the initial extent covers the program, as
10_state.md R24 (I6) needs (log entries 6 and 18). -/
def Config.chipInitFactor : Nat := Config.chipExtraFactor + 1

/-- The hardware's own configuration: the decided values of 00_scope.md R5 (`Fault`, exact fit), the open factor left
free (log entry 6), and the spec's defaults for `MEM_MAX` and `PROG_MAX` (log entry 5). -/
def Config.chip : Config where
  overflowPolicy := .fault
  memInitFactor := Config.chipInitFactor
  grow := fun _ a => a + 1
  memMax := addrCount
  progMax := addrCount

/-- The same with the reference value 2 of `MEM_INIT_FACTOR` (00_scope.md R5), which the worked examples use
(95_test_vectors.md, conventions). -/
def Config.reference : Config := { Config.chip with memInitFactor := 2 }

end Sys2Proof
end

