-- ==== Sys2Proof/Machine/State.lean ====
section
/-! DEFINITION. The complete state of one core, the tuple `(pc, rb, state, pin, pout, fault, mem, msize)`, and its reset value (10_state.md R10 to R26). -/

namespace Sys2Proof.Machine

/-- The run state (10_state.md R16). -/
inductive RunState where
  /-- Executing, or fresh from `new`. Code 0. -/
  | running
  /-- Stopped at an IN whose value has not been written. Code 1. -/
  | suspendedForInput
  /-- Stopped after an OUT. Code 2. -/
  | suspendedForOutput
  /-- Stopped by HALT, for good. Code 3. -/
  | halted
  /-- Stopped by a fault, for good. Code 4. -/
  | faulted
  deriving DecidableEq, Repr

/-- The cause of a fault (60_exceptions.md R140, R141). -/
inductive Cause where
  /-- The opcode has no defined behaviour (60_exceptions.md R142). Code 1. -/
  | invalidOpcode
  /-- Immediate mode on a write operand (60_exceptions.md R143). Code 2. -/
  | invalidWriteTarget
  /-- A negative address was formed (60_exceptions.md R144). Code 3. -/
  | addressError
  /-- A mode digit 3 to 9 (60_exceptions.md R145). Code 4. -/
  | invalidMode
  /-- A 64-bit result outside `I64` (60_exceptions.md R146). Code 5. -/
  | arithmeticOverflow
  deriving DecidableEq, Repr

/-- `pin`, the pending-input slot (10_state.md R17). -/
structure PendingInput where
  /-- A request is recorded. -/
  valid : Bool
  /-- The resolved destination address of the IN that suspended. -/
  dst : Word
  /-- The host has supplied the value. -/
  ready : Bool
  /-- The supplied value, meaningful only when `ready`. -/
  value : Word
  deriving DecidableEq, Repr

/-- `pout`, the pending-output slot (10_state.md R18). -/
structure PendingOutput where
  /-- An output has been surfaced and not yet acknowledged by the next `run`. -/
  valid : Bool
  /-- The value surfaced. -/
  value : Word
  deriving DecidableEq, Repr

/-- `fault`, the fault record (10_state.md R19). -/
structure FaultRecord where
  /-- A fault has been taken. -/
  valid : Bool
  /-- Its cause. -/
  cause : Cause
  /-- The value the cause records (60_exceptions.md R142 to R146). -/
  info : Word
  /-- The address of the faulting instruction word. -/
  pc : Word
  /-- The cell at that address at the time of the fault. -/
  iw : Word
  deriving DecidableEq, Repr

/-- The memory as its cells that are not 0, by address, in rising order; every unlisted cell reads as 0
(10_state.md R22, 20_memory.md R31; log entry 1). -/
abbrev Memory := List (Nat × Word)

/-- The complete state of one core (10_state.md, head). -/
structure State where
  /-- The program counter (10_state.md R11). -/
  pc : Word
  /-- The relative base (10_state.md R15). -/
  rb : Word
  /-- The run state (10_state.md R16). -/
  state : RunState
  /-- The pending-input slot (10_state.md R17). -/
  pin : PendingInput
  /-- The pending-output slot (10_state.md R18). -/
  pout : PendingOutput
  /-- The fault record (10_state.md R19). -/
  fault : FaultRecord
  /-- The memory (10_state.md R22). -/
  mem : Memory
  /-- The extent of the backing store (10_state.md R20). -/
  msize : Nat
  deriving DecidableEq, Repr

/-- Reasons for which a step stops with a fault of the MODEL. There are none: each of the five faults of the spec is a
next state with the fault record written and the run state `faulted` (60_exceptions.md R150). -/
inductive Fault where
  deriving DecidableEq, Repr

/-- Reasons for which the model gives a step or host operation no meaning. -/
inductive Refusal where
  /-- An instruction whose arm has no meaning yet; no arm of this model uses it. Safe: nothing is claimed of such a step. -/
  | notModelled (mnemonic : String)
  /-- A write at an address at or beyond `MEM_MAX`, raised by the one write operation (20_memory.md R45). Under the
  hardware's own configuration, where `MEM_MAX` is 2^63, no address is that large. Safe: the run gets no meaning. -/
  | beyondMemMax (address : Nat)
  deriving DecidableEq, Repr

/-- The state right after reset with nothing loaded: `new` of the empty program (10_state.md R25, 70_reset_and_hazards.md
R170, R171). The fields R25 calls without meaning hold the values of log entry 4. -/
def State.reset : State where
  pc := 0#64
  rb := 0#64
  state := .running
  pin := { valid := false, dst := 0#64, ready := false, value := 0#64 }
  pout := { valid := false, value := 0#64 }
  fault := { valid := false, cause := .invalidOpcode, info := 0#64, pc := 0#64, iw := 0#64 }
  mem := []
  msize := 0

end Sys2Proof.Machine
end

