-- ==== Sys2Proof/Machine/Ops.lean ====
section
/-! DEFINITION. The named operations: reading and writing memory, the updates of State, and taking a fault (20_memory.md R32 to R34, 60_exceptions.md R150). -/

namespace Sys2Proof.Machine

/-! ## Memory as data -/

/-- The cell at an address: its listed value, 0 where nothing is listed (20_memory.md R31, R32). -/
def Memory.read : Memory → Nat → Word
  | [], _ => 0#64
  | (k, w) :: rest, a => if k = a then w else Memory.read rest a

/-- `mem[a] <- v`, keeping the addresses rising and listing no 0 (20_memory.md R33). -/
def Memory.write : Memory → Nat → Word → Memory
  | [], a, v => if v = 0#64 then [] else [(a, v)]
  | (k, w) :: rest, a, v =>
    if a < k then (if v = 0#64 then (k, w) :: rest else (a, v) :: (k, w) :: rest)
    else if a = k then (if v = 0#64 then rest else (a, v) :: rest)
    else (k, w) :: Memory.write rest a v

/-- The canonical form from an address on: addresses rising, each below 2^63, no value 0. -/
def Memory.wfFrom : Nat → Memory → Bool
  | _, [] => true
  | low, (k, w) :: rest => decide (low ≤ k) && decide (k < addrCount) && decide (w ≠ 0#64) && Memory.wfFrom (k + 1) rest

/-- The canonical form of memory (log entry 1). -/
def Memory.wf (m : Memory) : Bool := Memory.wfFrom 0 m

/-- Every listed cell lies below an extent. -/
def Memory.below : Memory → Nat → Bool
  | [], _ => true
  | (k, _) :: rest, extent => decide (k < extent) && Memory.below rest extent

/-- The memory with a list of cells written from an address on, in list order (20_memory.md R35). -/
def Memory.load : Memory → Nat → List Word → Memory
  | m, _, [] => m
  | m, a, v :: rest => Memory.load (Memory.write m a v) (a + 1) rest

/-! ## Checks that may raise a fault -/

/-- A cause with the value it records: the argument of `raise` (00_scope.md R7). -/
structure Raise where
  /-- The cause. -/
  cause : Cause
  /-- What `fault.info` records. -/
  info : Word
  deriving DecidableEq, Repr

/-- A value, or the fault raised instead of it. -/
abbrev Check (α : Type) := Except Raise α

/-- The outcome of one step. -/
abbrev Outcome := Host.Outcome State Fault Refusal

/-- An address must not be negative (20_memory.md R39, 60_exceptions.md R144). -/
def checkAddress (a : Word) : Check Word :=
  if a.toInt < 0 then .error { cause := .addressError, info := a } else .ok a

/-! ## Reading and writing State -/

/-- `MemRead(a, 1)` (20_memory.md R32). Callers pass non-negative addresses (R39; log entry 9). -/
def memRead (s : State) (a : Word) : Word := Memory.read s.mem a.toNat

/-- The extent after a write at an address (20_memory.md R34). -/
def grownExtent (c : Config) (extent a : Nat) : Nat := if extent ≤ a then c.grow extent a else extent

/-- One cell written, and the extent grown when the cell lies beyond it (20_memory.md R33, R34). -/
def State.storeCell (s : State) (c : Config) (a : Nat) (v : Word) : State :=
  { s with mem := Memory.write s.mem a v, msize := grownExtent c s.msize a }

/-- `MemWrite(a, 1, v)`: refused at or beyond `MEM_MAX` (20_memory.md R33, R45). -/
def memWrite (c : Config) (s : State) (a v : Word) : Except Refusal State :=
  if a.toNat < c.memMax then .ok (s.storeCell c a.toNat v) else .error (.beyondMemMax a.toNat)

/-- `pc <- target`. -/
def State.setPc (s : State) (target : Word) : State := { s with pc := target }

/-- `rb <- base`. -/
def State.setRb (s : State) (base : Word) : State := { s with rb := base }

/-- `state <- r`. -/
def State.setRun (s : State) (r : RunState) : State := { s with state := r }

/-- The input request of an executed IN: the destination recorded, no value yet (44_io.md R105). -/
def State.requestInput (s : State) (d : Word) : State :=
  { s with pin := { s.pin with valid := true, dst := d, ready := false }, state := .suspendedForInput }

/-- The value of the pending input latched (46_host_operations.md R125). -/
def State.latchInput (s : State) (v : Word) : State := { s with pin := { s.pin with value := v, ready := true } }

/-- The input slot cleared (46_host_operations.md R124). -/
def State.clearInput (s : State) : State := { s with pin := { s.pin with valid := false, ready := false } }

/-- The output of an executed OUT surfaced (44_io.md R106). -/
def State.surfaceOutput (s : State) (v : Word) : State :=
  { s with pout := { valid := true, value := v }, state := .suspendedForOutput }

/-- The output slot cleared (46_host_operations.md R123). -/
def State.clearOutput (s : State) : State := { s with pout := { s.pout with valid := false } }

/-! ## Taking a fault -/

/-- Taking a fault: the record written, the pending slots cleared, the run state `faulted`; `mem`, `pc`, `rb` and
`msize` keep their values (60_exceptions.md R150). There is no return from it (R152). -/
def State.takeFault (s : State) (r : Raise) : State :=
  { s with
    fault := { valid := true, cause := r.cause, info := r.info, pc := s.pc, iw := memRead s s.pc }
    pin := { s.pin with valid := false, ready := false }
    pout := { s.pout with valid := false }
    state := .faulted }

/-- The end of an instruction: what it commits, or the fault it raised, taken in the state before it
(40_cycle_and_operands.md R81). -/
def settle (s : State) (result : Check Outcome) : Outcome :=
  match result with
  | .ok o => o
  | .error r => .next (s.takeFault r)

/-- The last two writes of an instruction that stores: the cell, then `pc` (41_arithmetic.md R90). -/
def commitStore (c : Config) (s : State) (d v next : Word) : Outcome :=
  match memWrite c s d v with
  | .ok s' => .next (s'.setPc next)
  | .error e => .refused e

end Sys2Proof.Machine
end

