-- ==== Sys2Proof/Machine/Alu.lean ====
section
/-! DEFINITION. The two 64-bit operations under `OVERFLOW_POLICY` (41_arithmetic.md R92, R93). -/

namespace Sys2Proof.Machine

/-- The 64-bit result of an exact integer: the integer itself when it is in `I64`, else what the policy says
(41_arithmetic.md R92, R93; 60_exceptions.md R146). -/
def narrow (p : OverflowPolicy) (x : Int) : Check Word :=
  if InI64 x then .ok (Word.ofInt x)
  else
    match p with
    | .fault => .error { cause := .arithmeticOverflow, info := 0#64 }
    | .wrap => .ok (Word.ofInt ((x + 2 ^ 63) % 2 ^ 64 - 2 ^ 63))
    | .saturate => if i64Max < x then .ok (Word.ofInt i64Max) else .ok (Word.ofInt i64Min)

/-- `add64(x, y)` (41_arithmetic.md R92). -/
def add64 (p : OverflowPolicy) (x y : Word) : Check Word := narrow p (x.toInt + y.toInt)

/-- `mul64(x, y)` (41_arithmetic.md R93). -/
def mul64 (p : OverflowPolicy) (x y : Word) : Check Word := narrow p (x.toInt * y.toInt)

end Sys2Proof.Machine
end

