-- ==== Sys2Proof/Machine/Operands.lean ====
section
/-! DEFINITION. Operand fetch, the three addressing modes for read and write operands, and the successor address (40_cycle_and_operands.md R73 to R83). -/

namespace Sys2Proof.Machine

/-- An undefined mode digit raises `InvalidMode` (40_cycle_and_operands.md R74). -/
def checkMode (m : Mode) : Check Mode :=
  match m with
  | .undefined d => .error { cause := .invalidMode, info := BitVec.ofNat 64 d }
  | .position => .ok m
  | .immediate => .ok m
  | .relative => .ok m

/-- The operand word of operand `i`: the cell at `add64(pc, i)` (40_cycle_and_operands.md R73). -/
def operandWord (c : Config) (s : State) (i : Nat) : Check Word := do
  let sum ← add64 c.overflowPolicy s.pc (BitVec.ofNat 64 i)
  let oa ← checkAddress sum
  return memRead s oa

/-- The effective address of relative mode: `add64(rb, w)`, not negative (40_cycle_and_operands.md R76, R78). -/
def relativeAddress (c : Config) (s : State) (w : Word) : Check Word := do
  let sum ← add64 c.overflowPolicy s.rb w
  checkAddress sum

/-- `ReadOperand(m, w)` (40_cycle_and_operands.md R75, R76, R77, R80). -/
def resolveRead (c : Config) (s : State) (m : Mode) (w : Word) : Check Word :=
  match m with
  | .position => do
    let ea ← checkAddress w
    return memRead s ea
  | .immediate => .ok w
  | .relative => do
    let ea ← relativeAddress c s w
    return memRead s ea
  | .undefined d => .error { cause := .invalidMode, info := BitVec.ofNat 64 d }

/-- `WriteTarget(m, w)` (40_cycle_and_operands.md R78, R80). -/
def resolveWrite (c : Config) (s : State) (m : Mode) (w : Word) : Check Word :=
  match m with
  | .position => checkAddress w
  | .immediate => .error { cause := .invalidWriteTarget, info := 0#64 }
  | .relative => relativeAddress c s w
  | .undefined d => .error { cause := .invalidMode, info := BitVec.ofNat 64 d }

/-- The value of read operand `i`: mode digit, operand word, resolution, in this order (40_cycle_and_operands.md R80). -/
def readOperand (c : Config) (s : State) (i : Nat) (m : Mode) : Check Word := do
  let mode ← checkMode m
  let w ← operandWord c s i
  resolveRead c s mode w

/-- The address of write operand `i`, in the same order (40_cycle_and_operands.md R80). -/
def writeTarget (c : Config) (s : State) (i : Nat) (m : Mode) : Check Word := do
  let mode ← checkMode m
  let w ← operandWord c s i
  resolveWrite c s mode w

/-- `Next(k)`, the successor address (40_cycle_and_operands.md R79). -/
def successor (c : Config) (s : State) (k : Nat) : Check Word := do
  let t ← add64 c.overflowPolicy s.pc (BitVec.ofNat 64 k)
  checkAddress t

end Sys2Proof.Machine
end

