-- ==== Sys2Proof/Machine/Cycle.lean ====
section
/-! DEFINITION. Fetch and opcode decode, the two resumes, and what one step of a core does in each run state (40_cycle_and_operands.md R70 to R72, R80; 46_host_operations.md R122 to R124). -/

namespace Sys2Proof.Machine

/-- `Step()` of 40_cycle_and_operands.md R80: fetch, opcode, then the instruction's own meaning, which resolves its
operands. An undefined opcode raises `InvalidOpcode(iw rem 100)` (60_exceptions.md R142). -/
def executeNext (run : Instr → State → Outcome) (s : State) : Outcome :=
  match selectInstr (memRead s s.pc) with
  | none => .next (s.takeFault { cause := .invalidOpcode, info := Word.ofInt (opcodeOf (memRead s s.pc)) })
  | some i => run i s

/-- `Resume_input()` (46_host_operations.md R124): the deferred write to the recorded address and `pc + 2`, with nothing
fetched again; a fault of `Next(2)` is taken before the write (40_cycle_and_operands.md R81). -/
def resumeInput (c : Config) (s : State) : Outcome := settle s do
  let t ← successor c s 2
  return match memWrite c s s.pin.dst s.pin.value with
    | .ok s' => .next (((s'.setPc t).clearInput).setRun .running)
    | .error e => .refused e

/-- `Resume_output()` (46_host_operations.md R123). -/
def resumeOutput (s : State) : Outcome := .next (s.clearOutput.setRun .running)

/-- One step in each run state. Running: one instruction (40_cycle_and_operands.md R70). Otherwise what the host's next
`run()` does before it executes anything: a resume, or nothing (46_host_operations.md R122; log entry 2). -/
def advance (c : Config) (run : Instr → State → Outcome) (s : State) : Outcome :=
  match s.state with
  | .running => executeNext run s
  | .suspendedForInput => if s.pin.ready then resumeInput c s else .next s
  | .suspendedForOutput => resumeOutput s
  | .halted => .next s
  | .faulted => .next s

/-- A list of cells stored from the program counter on, as the host's `poke` would (46_host_operations.md R127), up to
the top of the address space. -/
def placeCells (c : Config) (s : State) : Nat → List Word → State
  | _, [] => s
  | a, v :: rest => placeCells c (if a < addrCount then s.storeCell c a v else s) (a + 1) rest

/-- The state with the four cells of an instruction placed at the program counter and the core running (log entry 3). -/
def placeInstr (c : Config) (s : State) (w : Nat) : State :=
  (placeCells c s s.pc.toNat [tableCell w 0, tableCell w 1, tableCell w 2, tableCell w 3]).setRun .running

end Sys2Proof.Machine
end

