-- ==== Sys2Proof/Machine/Flags.lean ====
section
/-! DEFINITION. The machine has no flags (10_state.md R14): comparisons give a cell value, and jumps test one. -/

namespace Sys2Proof.Machine

/-- The result of a comparison, exactly 0 or 1 (42_compare.md R97). -/
def truthWord (b : Bool) : Word := if b then 1#64 else 0#64

/-- `v_1 < v_2`, signed (42_compare.md R95). -/
def isLess (x y : Word) : Bool := decide (x.toInt < y.toInt)

/-- `v_1 == v_2`, the whole word (42_compare.md R96). -/
def isEqual (x y : Word) : Bool := decide (x = y)

/-- A jump condition: any non-zero value is true (43_jump.md R100). -/
def isNonzero (x : Word) : Bool := decide (x ≠ 0#64)

/-- The condition of JF (43_jump.md R101). -/
def isZero (x : Word) : Bool := decide (x = 0#64)

end Sys2Proof.Machine
end

