-- ==== Sys2Proof/Machine/Arithmetic.lean ====
section
/-! DEFINITION. ADD and MUL (41_arithmetic.md R90, R91), and the shape they share with LT and EQ. Each meaning is written for any configuration, then taken at the hardware's own. -/

namespace Sys2Proof.Machine

/-- An instruction of format `F3RRW`: operands in order, the operation, the successor address, then the two writes
(41_arithmetic.md R90; 40_cycle_and_operands.md R81, R82). -/
def computeAndStore (c : Config) (op : Word → Word → Check Word) (a b dst : Mode) (s : State) : Outcome := settle s do
  let v1 ← readOperand c s 1 a
  let v2 ← readOperand c s 2 b
  let d ← writeTarget c s 3 dst
  let r ← op v1 v2
  let t ← successor c s 4
  return commitStore c s d r t

/-- `Execute_ADD` (41_arithmetic.md R90). -/
def addUnder (c : Config) (a b dst : Mode) (s : State) : Outcome := computeAndStore c (add64 c.overflowPolicy) a b dst s

/-- `Execute_MUL` (41_arithmetic.md R91). -/
def mulUnder (c : Config) (a b dst : Mode) (s : State) : Outcome := computeAndStore c (mul64 c.overflowPolicy) a b dst s

/-- ADD on this hardware (41_arithmetic.md R90). -/
def execAdd (a b dst : Mode) (s : State) : Outcome := addUnder Config.chip a b dst s

/-- MUL on this hardware (41_arithmetic.md R91). -/
def execMul (a b dst : Mode) (s : State) : Outcome := mulUnder Config.chip a b dst s

end Sys2Proof.Machine
end

