-- ==== Sys2Proof/Machine/Compare.lean ====
section
/-! DEFINITION. LT and EQ (42_compare.md R95, R96): the shape of ADD with a comparison as the operation, which raises nothing. -/

namespace Sys2Proof.Machine

/-- `(v_1 < v_2) ? 1 : 0` (42_compare.md R95). -/
def lessResult (x y : Word) : Check Word := .ok (truthWord (isLess x y))

/-- `(v_1 == v_2) ? 1 : 0` (42_compare.md R96). -/
def equalResult (x y : Word) : Check Word := .ok (truthWord (isEqual x y))

/-- `Execute_LT` (42_compare.md R95). -/
def ltUnder (c : Config) (a b dst : Mode) (s : State) : Outcome := computeAndStore c lessResult a b dst s

/-- `Execute_EQ` (42_compare.md R96). -/
def eqUnder (c : Config) (a b dst : Mode) (s : State) : Outcome := computeAndStore c equalResult a b dst s

/-- LT on this hardware (42_compare.md R95). -/
def execLt (a b dst : Mode) (s : State) : Outcome := ltUnder Config.chip a b dst s

/-- EQ on this hardware (42_compare.md R96). -/
def execEq (a b dst : Mode) (s : State) : Outcome := eqUnder Config.chip a b dst s

end Sys2Proof.Machine
end

