-- ==== Sys2Proof/Machine/Control.lean ====
section
/-! DEFINITION. ARB and HALT (45_relbase_halt.md R112, R113). -/

namespace Sys2Proof.Machine

/-- `Execute_ARB` (45_relbase_halt.md R112). The operand is resolved with the old base. -/
def arbUnder (c : Config) (a : Mode) (s : State) : Outcome := settle s do
  let v1 ← readOperand c s 1 a
  let r ← add64 c.overflowPolicy s.rb v1
  let t ← successor c s 2
  return .next ((s.setRb r).setPc t)

/-- `Execute_HALT`: `pc` stays at the HALT (45_relbase_halt.md R113). -/
def haltUnder (_c : Config) (s : State) : Outcome := .next (s.setRun .halted)

/-- ARB on this hardware (45_relbase_halt.md R112). -/
def execArb (a : Mode) (s : State) : Outcome := arbUnder Config.chip a s

/-- HALT on this hardware (45_relbase_halt.md R113). -/
def execHalt (s : State) : Outcome := haltUnder Config.chip s

end Sys2Proof.Machine
end

