-- ==== Sys2Proof/Machine/InputOutput.lean ====
section
/-! DEFINITION. IN and OUT (44_io.md R105, R106). The resumes they are completed by are in Cycle.lean. -/

namespace Sys2Proof.Machine

/-- `Execute_IN`: the resolved destination recorded, the core suspended, `pc` and `mem` as they were (44_io.md R105). -/
def inpUnder (c : Config) (dst : Mode) (s : State) : Outcome := settle s do
  let d ← writeTarget c s 1 dst
  return .next (s.requestInput d)

/-- `Execute_OUT`: the value surfaced, `pc` past the instruction, the core suspended (44_io.md R106). -/
def outUnder (c : Config) (a : Mode) (s : State) : Outcome := settle s do
  let v1 ← readOperand c s 1 a
  let t ← successor c s 2
  return .next ((s.surfaceOutput v1).setPc t)

/-- IN on this hardware (44_io.md R105). -/
def execInp (dst : Mode) (s : State) : Outcome := inpUnder Config.chip dst s

/-- OUT on this hardware (44_io.md R106). -/
def execOut (a : Mode) (s : State) : Outcome := outUnder Config.chip a s

end Sys2Proof.Machine
end

