-- ==== Sys2Proof/Machine/Jump.lean ====
section
/-! DEFINITION. JT and JF (43_jump.md R100, R101, R103). -/

namespace Sys2Proof.Machine

/-- Where a jump leaves `pc`: the target when taken, which must not be negative, else the successor address
(43_jump.md R100, R103). -/
def jumpTarget (c : Config) (taken : Bool) (target : Word) (s : State) : Check Word :=
  if taken then checkAddress target else successor c s 3

/-- A conditional jump: both operands are resolved, taken or not, then the condition decides
(43_jump.md R100; 40_cycle_and_operands.md R84). -/
def jumpWhen (c : Config) (taken : Word → Bool) (a target : Mode) (s : State) : Outcome := settle s do
  let v1 ← readOperand c s 1 a
  let v2 ← readOperand c s 2 target
  let t ← jumpTarget c (taken v1) v2 s
  return .next (s.setPc t)

/-- `Execute_JT` (43_jump.md R100). -/
def jtUnder (c : Config) (a target : Mode) (s : State) : Outcome := jumpWhen c isNonzero a target s

/-- `Execute_JF` (43_jump.md R101). -/
def jfUnder (c : Config) (a target : Mode) (s : State) : Outcome := jumpWhen c isZero a target s

/-- JT on this hardware (43_jump.md R100). -/
def execJt (a target : Mode) (s : State) : Outcome := jtUnder Config.chip a target s

/-- JF on this hardware (43_jump.md R101). -/
def execJf (a target : Mode) (s : State) : Outcome := jfUnder Config.chip a target s

end Sys2Proof.Machine
end

