-- ==== Sys2Proof/Machine/Step.lean ====
section
/-! DEFINITION. The step of the hardware. -/

namespace Sys2Proof.Machine

/-- One step of the core under the hardware's own configuration (40_cycle_and_operands.md R70; log entry 2). -/
def step (s : State) : Host.Outcome State Fault Refusal := advance Config.chip exec s

/-- `s` with the instruction whose bits are `w` stored where the next step fetches it, and the core running. A cell is
64 bits and the bits above `nbits` are 0, so `nbits` decides nothing (log entries 3 and 15). -/
def State.withFetchWord (s : State) (_nbits w : Nat) : State := placeInstr Config.chip s w

end Sys2Proof.Machine
end

