-- ==== Sys2Proof/Machine/AnyConfig.lean ====
section
/-! DEFINITION. The machine under any configuration: the parameters of 00_scope.md R5 as an argument. Under `Config.chip` it is the hardware's own step. -/

namespace Sys2Proof.Machine

/-- The meaning of an instruction under a configuration (00_scope.md R5). -/
def execUnder (c : Config) (i : Instr) (s : State) : Outcome :=
  match i with
  | .add a b dst => addUnder c a b dst s
  | .mul a b dst => mulUnder c a b dst s
  | .inp dst => inpUnder c dst s
  | .out a => outUnder c a s
  | .jt a target => jtUnder c a target s
  | .jf a target => jfUnder c a target s
  | .lt a b dst => ltUnder c a b dst s
  | .eq a b dst => eqUnder c a b dst s
  | .arb a => arbUnder c a s
  | .halt => haltUnder c s

/-- One step under a configuration (00_scope.md R5; log entry 2). -/
def stepUnder (c : Config) (s : State) : Outcome := advance c (execUnder c) s

end Sys2Proof.Machine
end

