-- ==== Sys2Proof/Machine/HostOps.lean ====
section
/-! DEFINITION. The host operations `new`, `run`, `supply`, `peek`, `poke`, `debugDump` and the sequences a host makes of them (46_host_operations.md R120 to R135; 70_reset_and_hazards.md R170, R171). The host acts only between runs (R121; log entry 13). -/

namespace Sys2Proof.Machine

/-- The code of a run state for a status port (10_state.md R16). -/
def RunState.code : RunState → Nat
  | .running => 0
  | .suspendedForInput => 1
  | .suspendedForOutput => 2
  | .halted => 3
  | .faulted => 4

/-- The code of a cause for a cause register (60_exceptions.md R141). -/
def Cause.code : Cause → Nat
  | .invalidOpcode => 1
  | .invalidWriteTarget => 2
  | .addressError => 3
  | .invalidMode => 4
  | .arithmeticOverflow => 5

/-! ## new -/

/-- The state `new(program)` creates for a program it accepts (10_state.md R25, 70_reset_and_hazards.md R170). Every cell
of the program is loaded, with no check against `MEM_MAX`: DESIGN CHOICE for a program longer than `MEM_MAX`, of which
the spec says nothing (log entry 17); the extent is not cut down to `MEM_MAX` either (log entry 14). -/
def State.loaded (c : Config) (program : List Word) : State :=
  { State.reset with mem := Memory.load [] 0 program, msize := c.memInitFactor * program.length }

/-- `new(program)`: none for a program longer than `PROG_MAX` (70_reset_and_hazards.md R171). `PROG_MAX` alone is
checked: DESIGN CHOICE where a configuration has `PROG_MAX` above `MEM_MAX`, of which the spec says nothing (log entry
17); the hardware's has them equal. -/
def newCore (c : Config) (program : List Word) : Option State :=
  if program.length ≤ c.progMax then some (State.loaded c program) else none

/-! ## run -/

/-- The result of `run` (46_host_operations.md R131). -/
inductive RunResult where
  /-- The program has halted. -/
  | halted
  /-- The program waits for an input. -/
  | waitingForInput
  /-- The program has output a value. -/
  | output (v : Word)
  /-- The core has faulted; the fault record. -/
  | fault (cause : Cause) (info pc iw : Word)
  deriving DecidableEq, Repr

/-- What `run` returns in a state that is not `Running`; none in `Running` (46_host_operations.md R122, last case). -/
def stopResult (s : State) : Option RunResult :=
  match s.state with
  | .running => none
  | .suspendedForInput => some .waitingForInput
  | .suspendedForOutput => some (.output s.pout.value)
  | .halted => some .halted
  | .faulted => some (.fault s.fault.cause s.fault.info s.fault.pc s.fault.iw)

/-- How a `run` with a bound on its steps ends (43_jump.md R104: the core itself has no bound; log entry 12). -/
inductive RunEnd where
  /-- `run` returned. -/
  | returned (r : RunResult) (s : State)
  /-- A write beyond `MEM_MAX` (20_memory.md R45). -/
  | refused (r : Refusal)
  /-- The bound was reached: nothing is said of the run. -/
  | unfinished
  deriving DecidableEq, Repr

/-- The loop of `run`: steps while the state is `Running` (46_host_operations.md R122). -/
def runLoop (c : Config) : Nat → State → RunEnd
  | fuel, s =>
    match stopResult s with
    | some r => .returned r s
    | none =>
      match fuel with
      | 0 => .unfinished
      | n + 1 =>
        match stepUnder c s with
        | .next t => runLoop c n t
        | .fault r => nomatch r
        | .refused r => .refused r

/-- `run()` with at most `fuel` steps: in a stopped state first the resume or nothing, then the loop
(46_host_operations.md R122). -/
def run (c : Config) (fuel : Nat) (s : State) : RunEnd :=
  match s.state with
  | .running => runLoop c fuel s
  | _ =>
    match stepUnder c s with
    | .next t => runLoop c fuel t
    | .fault r => nomatch r
    | .refused r => .refused r

/-! ## supply, peek, poke, debugDump -/

/-- `supply(v)` (46_host_operations.md R125). -/
def supply (s : State) (v : Word) : State :=
  if s.state = .suspendedForInput ∧ s.pin.valid ∧ s.pin.ready = false then s.latchInput v else s

/-- `peek(address)`: the cell, or the error `AddressError(address)` for the host (46_host_operations.md R126). -/
def peek (s : State) (a : Word) : Except Word Word := if a.toInt < 0 then .error a else .ok (memRead s a)

/-- `debugDump()`: cells `0 .. msize-1` in order (46_host_operations.md R129). -/
def debugDump (s : State) : List Word := (List.range s.msize).map (Memory.read s.mem)

/-! ## Sequences of host operations -/

/-- A host operation (46_host_operations.md R120). -/
inductive HostOp where
  /-- `new(program)`. -/
  | new (program : List Word)
  /-- `run()`. -/
  | run
  /-- `supply(v)`. -/
  | supply (v : Word)
  /-- `peek(address)`. -/
  | peek (a : Word)
  /-- `poke(address, value)`. -/
  | poke (a v : Word)
  /-- `debugDump()`. -/
  | debugDump
  deriving DecidableEq, Repr

/-- What a host operation answers. -/
inductive Reply where
  /-- `new` made a core. -/
  | created
  /-- `new` refused the program; no core was made (70_reset_and_hazards.md R171). -/
  | programRefused
  /-- The result of `run`. -/
  | stopped (r : RunResult)
  /-- `supply` and a successful `poke` answer nothing. -/
  | done
  /-- The cell `peek` read. -/
  | value (v : Word)
  /-- `AddressError(address)` from `peek` or `poke` (60_exceptions.md R153). -/
  | addressError (a : Word)
  /-- The cells of a `debugDump`. -/
  | cells (l : List Word)
  deriving DecidableEq, Repr

/-- One host operation served, or given no meaning. -/
inductive Served where
  /-- The reply and the core afterwards. -/
  | reply (r : Reply) (core : Option State)
  /-- A write beyond `MEM_MAX` (20_memory.md R45). -/
  | refused (r : Refusal)
  /-- A `run` that did not return within the bound (log entry 12). -/
  | unfinished
  /-- An operation other than `new` before the first `new`: not defined (70_reset_and_hazards.md R170). -/
  | noCore
  deriving DecidableEq, Repr

/-- `poke(address, value)` (46_host_operations.md R127). -/
def servePoke (c : Config) (s : State) (a v : Word) : Served :=
  if a.toInt < 0 then .reply (.addressError a) (some s)
  else
    match memWrite c s a v with
    | .ok t => .reply .done (some t)
    | .error e => .refused e

/-- `peek(address)` with the core unchanged (46_host_operations.md R126). -/
def servePeek (s : State) (a : Word) : Served :=
  match peek s a with
  | .ok v => .reply (.value v) (some s)
  | .error e => .reply (.addressError e) (some s)

/-- `run()` as a host operation (46_host_operations.md R122). -/
def serveRun (c : Config) (fuel : Nat) (s : State) : Served :=
  match run c fuel s with
  | .returned r t => .reply (.stopped r) (some t)
  | .refused e => .refused e
  | .unfinished => .unfinished

/-- `new(program)` as a host operation; a refused program leaves what was there (70_reset_and_hazards.md R171, R172). -/
def serveNew (c : Config) (program : List Word) (before : Option State) : Served :=
  match newCore c program with
  | some s => .reply .created (some s)
  | none => .reply .programRefused before

/-- One host operation on a core, `none` before the first `new` (46_host_operations.md R120). -/
def serve (c : Config) (fuel : Nat) (op : HostOp) (core : Option State) : Served :=
  match op, core with
  | .new program, before => serveNew c program before
  | _, none => .noCore
  | .run, some s => serveRun c fuel s
  | .supply v, some s => .reply .done (some (supply s v))
  | .peek a, some s => servePeek s a
  | .poke a v, some s => servePoke c s a v
  | .debugDump, some s => .reply (.cells (debugDump s)) (some s)

/-- A sequence of host operations: the replies and the core at the end, none when some operation has no meaning
(46_host_operations.md R135). -/
def serveAll (c : Config) (fuel : Nat) : List HostOp → Option State → Option (List Reply × Option State)
  | [], core => some ([], core)
  | op :: rest, core =>
    match serve c fuel op core with
    | .reply r next =>
      match serveAll c fuel rest next with
      | some (rs, last) => some (r :: rs, last)
      | none => none
    | _ => none

/-- The values a program has output, in order (46_host_operations.md R135). -/
def outputsOf : List Reply → List Word
  | [] => []
  | .stopped (.output v) :: rest => v :: outputsOf rest
  | _ :: rest => outputsOf rest

/-- Several cores and one operation on core `k`: the others are not touched (46_host_operations.md R133, 60_exceptions.md
R164). None when the operation has no meaning or there is no core `k`. -/
def serveAt (c : Config) (fuel : Nat) (op : HostOp) : Nat → List (Option State) → Option (Reply × List (Option State))
  | _, [] => none
  | 0, core :: others =>
    match serve c fuel op core with
    | .reply r next => some (r, next :: others)
    | _ => none
  | k + 1, core :: others =>
    match serveAt c fuel op k others with
    | some (r, after) => some (r, core :: after)
    | none => none

end Sys2Proof.Machine
end

