-- ==== Sys2Proof/Safety.lean ====
section
/-! DEFINITION. The terms claims are stated in: the invariants of 10_state.md R24, and, in exact integer arithmetic, what each operand is and which fault an instruction raises first (60_exceptions.md R148). -/

namespace Sys2Proof.Machine

/-! ## Invariants (10_state.md R24) -/

/-- I2 to I5, hence I7: each slot is valid exactly in the run state that goes with it. -/
abbrev State.SlotsAgree (s : State) : Prop :=
  (s.state = .suspendedForInput ↔ s.pin.valid = true) ∧ (s.state = .suspendedForOutput ↔ s.pout.valid = true) ∧
  (s.state = .faulted ↔ s.fault.valid = true) ∧ (s.pin.ready = true → s.pin.valid = true)

/-- I1 and the types `Addr` of 10_state.md R17 and R19: no address held is negative. -/
abbrev State.AddressesLegal (s : State) : Prop :=
  0 ≤ s.pc.toInt ∧ (s.pin.valid = true → 0 ≤ s.pin.dst.toInt) ∧ (s.fault.valid = true → 0 ≤ s.fault.pc.toInt)

/-- I6, and the canonical form of memory: every cell that is not 0 is listed once, below the extent. -/
abbrev State.MemoryLegal (s : State) : Prop := Memory.wf s.mem = true ∧ Memory.below s.mem s.msize = true

/-- The invariants of 10_state.md R24 that are about one state. -/
abbrev State.Inv (s : State) : Prop := s.SlotsAgree ∧ s.AddressesLegal ∧ s.MemoryLegal

/-! ## Operands, in exact arithmetic -/

/-- The cell that holds operand `k` (40_cycle_and_operands.md R73). -/
def operandCell (s : State) (k : Nat) : Word := Memory.read s.mem (s.pc.toNat + k)

/-- The integer an operand refers to: the operand word, or the relative base plus it (40_cycle_and_operands.md R83). -/
def operandSum (s : State) (k : Nat) (m : Mode) : Int :=
  match m with
  | .relative => s.rb.toInt + (operandCell s k).toInt
  | _ => (operandCell s k).toInt

/-- The value of a read operand that raises no fault (40_cycle_and_operands.md R83). -/
def operandValue (s : State) (k : Nat) (m : Mode) : Word :=
  match m with
  | .immediate => operandCell s k
  | _ => Memory.read s.mem (operandSum s k m).toNat

/-- The address of a write operand that raises no fault (40_cycle_and_operands.md R83). -/
def operandAddress (s : State) (k : Nat) (m : Mode) : Nat := (operandSum s k m).toNat

/-! ## The first fault of an instruction (60_exceptions.md R148), under the decided policy `Fault` -/

/-- `ArithmeticOverflow` (60_exceptions.md R146). -/
def overflowRaise : Raise := { cause := .arithmeticOverflow, info := 0#64 }

/-- The fault of an exact result outside `I64` (60_exceptions.md R146). -/
def rangeFault (x : Int) : Option Raise := if InI64 x then none else some overflowRaise

/-- The fault of a negative address (60_exceptions.md R144). -/
def addressFault (x : Int) : Option Raise :=
  if x < 0 then some { cause := .addressError, info := Word.ofInt x } else none

/-- The fault of operand `k`, in the order 2a to 2e of 60_exceptions.md R148. -/
def operandFault (s : State) (k : Nat) (role : Role) (m : Mode) : Option Raise :=
  match m, role with
  | .undefined d, _ => some { cause := .invalidMode, info := BitVec.ofNat 64 d }
  | .immediate, .read => rangeFault (s.pc.toInt + k)
  | .immediate, .write => (rangeFault (s.pc.toInt + k)).or (some { cause := .invalidWriteTarget, info := 0#64 })
  | .position, _ => (rangeFault (s.pc.toInt + k)).or (addressFault (operandSum s k .position))
  | .relative, _ => (rangeFault (s.pc.toInt + k)).or
      ((rangeFault (operandSum s k .relative)).or (addressFault (operandSum s k .relative)))

/-- The first fault of a list of operands, the first of them operand `k`, each operand completely before the next
(60_exceptions.md R148). -/
def firstOperandFault (s : State) : Nat → List (Role × Mode) → Option Raise
  | _, [] => none
  | k, o :: rest => (operandFault s k o.1 o.2).or (firstOperandFault s (k + 1) rest)

/-- The fault of the instruction's own computation, (3) of 60_exceptions.md R148. -/
def ownFault (s : State) : Instr → Option Raise
  | .add a b _ => rangeFault ((operandValue s 1 a).toInt + (operandValue s 2 b).toInt)
  | .mul a b _ => rangeFault ((operandValue s 1 a).toInt * (operandValue s 2 b).toInt)
  | .inp _ => none
  | .out _ => none
  | .jt a target => if operandValue s 1 a = 0#64 then none else addressFault (operandValue s 2 target).toInt
  | .jf a target => if operandValue s 1 a = 0#64 then addressFault (operandValue s 2 target).toInt else none
  | .lt _ _ _ => none
  | .eq _ _ _ => none
  | .arb a => rangeFault (s.rb.toInt + (operandValue s 1 a).toInt)
  | .halt => none

/-- Whether the instruction computes its successor address when it executes (40_cycle_and_operands.md R79). -/
def fallsThrough (s : State) : Instr → Bool
  | .add _ _ _ => true
  | .mul _ _ _ => true
  | .inp _ => false
  | .out _ => true
  | .jt a _ => decide (operandValue s 1 a = 0#64)
  | .jf a _ => decide (operandValue s 1 a ≠ 0#64)
  | .lt _ _ _ => true
  | .eq _ _ _ => true
  | .arb _ => true
  | .halt => false

/-- The fault of the successor address, (4) of 60_exceptions.md R148. -/
def successorFault (s : State) (i : Instr) : Option Raise :=
  if fallsThrough s i then rangeFault (s.pc.toInt + i.width) else none

/-- The fault an instruction raises, the first in the order of 60_exceptions.md R148; none where it completes. -/
def instrFault (s : State) (i : Instr) : Option Raise :=
  (firstOperandFault s 1 i.operands).or ((ownFault s i).or (successorFault s i))

/-- The extent after a cell is stored, exact fit (20_memory.md R34). -/
def extentAfter (s : State) (a : Nat) : Nat := if s.msize ≤ a then a + 1 else s.msize

end Sys2Proof.Machine
end

