-- ==== Sys2Proof/Certificates/Slice0/Obligations.lean ====
section
/-! DEFINITION. The statements for the provers, from the numbered rules of spec/. -/

open Sys2Proof Sys2Proof.Machine

/-! ## Encoding and decoding -/

/-- The canonical instruction words under each opcode, as the table of 30_encoding.md R67 lists them. -/
def Sys2Proof.canonicalWords : List (Nat × List Nat) :=
  [(1, [1, 101, 201, 1001, 1101, 1201, 2001, 2101, 2201, 20001, 20101, 20201, 21001, 21101, 21201, 22001, 22101, 22201])] ++
  [(2, [2, 102, 202, 1002, 1102, 1202, 2002, 2102, 2202, 20002, 20102, 20202, 21002, 21102, 21202, 22002, 22102, 22202])] ++
  [(3, [3, 203]), (4, [4, 104, 204]), (5, [5, 105, 205, 1005, 1105, 1205, 2005, 2105, 2205])] ++
  [(6, [6, 106, 206, 1006, 1106, 1206, 2006, 2106, 2206])] ++
  [(7, [7, 107, 207, 1007, 1107, 1207, 2007, 2107, 2207, 20007, 20107, 20207, 21007, 21107, 21207, 22007, 22107, 22207])] ++
  [(8, [8, 108, 208, 1008, 1108, 1208, 2008, 2108, 2208, 20008, 20108, 20208, 21008, 21108, 21208, 22008, 22108, 22208])] ++
  [(9, [9, 109, 209]), (99, [99])]

/-- The mode digit of operand `k` (1, 2 or 3) of an instruction, 0 where there is no such operand (30_encoding.md R66). -/
def Sys2Proof.modeDigitOf (i : Instr) (k : Nat) : Nat :=
  match i.operands[k - 1]? with
  | some o => o.2.digit
  | none => 0

/-- The roles of an opcode's operands, as 30_encoding.md R65 lists them; none for an undefined opcode. -/
def Sys2Proof.rolesOf (op : Int) : Option (List Role) :=
  if op = 1 ∨ op = 2 ∨ op = 7 ∨ op = 8 then some [.read, .read, .write]
  else if op = 5 ∨ op = 6 then some [.read, .read]
  else if op = 4 ∨ op = 9 then some [.read]
  else if op = 3 then some [.write]
  else if op = 99 then some []
  else none

/-- A mode digit is wrong for a role: it selects no mode, or it is immediate on a write operand (30_encoding.md R58,
R59). -/
abbrev Sys2Proof.WrongDigit (role : Role) (digit : Nat) : Prop := 3 ≤ digit ∨ (role = .write ∧ digit = 1)

/-- Operand `k` (from 0 on), of a role, is the first of the word's operands with a wrong mode digit (30_encoding.md R65). -/
abbrev Sys2Proof.FirstWrongOperand (iw : Word) (k : Nat) (role : Role) : Prop :=
  0 ≤ iw.toInt ∧ ∃ roles, rolesOf (iw.toInt % 100) = some roles ∧ roles[k]? = some role ∧
    WrongDigit role (iw.toNat / 10 ^ (k + 2) % 10) ∧
    ∀ (j : Nat) (earlier : Role), j < k → roles[j]? = some earlier →
      ¬ WrongDigit earlier (iw.toNat / 10 ^ (j + 2) % 10)

/-- 30_encoding.md R51, R54, R67: words of every family, read from the decimal encoding by hand, decode to the
instruction they stand for. -/
def Obligations.KnownWordsDecode : Prop :=
  decode 1#64 = .ok (.add .position .position .position) ∧
  decode 22201#64 = .ok (.add .relative .relative .relative) ∧
  decode 1002#64 = .ok (.mul .position .immediate .position) ∧
  decode 203#64 = .ok (.inp .relative) ∧
  decode 104#64 = .ok (.out .immediate) ∧
  decode 1005#64 = .ok (.jt .position .immediate) ∧
  decode 2106#64 = .ok (.jf .immediate .relative) ∧
  decode 21107#64 = .ok (.lt .immediate .immediate .relative) ∧
  decode 1008#64 = .ok (.eq .position .immediate .position) ∧
  decode 109#64 = .ok (.arb .immediate) ∧
  decode 99#64 = .ok .halt

/-- 30_encoding.md R67: the canonical words of the legal instructions, opcode by opcode, are the 99 listed, in the
listed numbers. -/
def Obligations.CanonicalWordsAreTheListed : Prop :=
  (canonicalWords.map fun row => row.2.length) = [18, 18, 2, 3, 9, 9, 18, 18, 3, 1] ∧
  (canonicalWords.flatMap fun row => row.2).Nodup ∧
  ∀ op n : Nat, (∃ words, (op, words) ∈ canonicalWords ∧ n ∈ words) ↔
    ∃ i : Instr, i.wellFormed = true ∧ i.opcode = op ∧ (encode i).toNat = n

/-- 30_encoding.md R66: the encoder's formula, the round trip on every legal instruction, and when encoding gives the
word back. -/
def Obligations.EncodeAndDecodeAgree : Prop :=
  (∀ i : Instr, i.wellFormed = true →
    (encode i).toNat = i.opcode + 100 * modeDigitOf i 1 + 1000 * modeDigitOf i 2 + 10000 * modeDigitOf i 3) ∧
  (∀ i : Instr, i.wellFormed = true → decode (encode i) = .ok i) ∧
  (∀ (iw : Word) (i : Instr), decode iw = .ok i →
    (encode i = iw ↔ 0 ≤ iw.toInt ∧ iw.toInt < 100000 ∧
      ∀ k : Nat, i.operands.length < k → k ≤ 3 → decimalDigit (k + 1) iw.toNat = 0))

/-- 30_encoding.md R60: whatever stands in the digits the opcode has no operand for, the word decodes as the canonical
one does. -/
def Obligations.UnreadDigitsAreIgnored : Prop :=
  ∀ (i : Instr) (rest : Nat), i.wellFormed = true →
    (encode i).toNat + 10 ^ (2 + i.operands.length) * rest < 2 ^ 63 →
    decode (BitVec.ofNat 64 ((encode i).toNat + 10 ^ (2 + i.operands.length) * rest)) = .ok i

/-- 30_encoding.md R53: the opcode is the truncated remainder by 100: of a word that is not negative its low two decimal
digits, of a negative word a value in -99 .. 0, and every negative word is `InvalidOpcode` of it. -/
def Obligations.OpcodeIsTheTruncatedRemainder : Prop :=
  ∀ iw : Word, opcodeOf iw = iw.toInt.tmod 100 ∧
    (0 ≤ iw.toInt → opcodeOf iw = decimalDigit 1 iw.toNat * 10 + decimalDigit 0 iw.toNat) ∧
    (iw.toInt < 0 → -99 ≤ opcodeOf iw ∧ opcodeOf iw ≤ 0 ∧ decode iw = .error (.invalidOpcode (opcodeOf iw)))

/-- 30_encoding.md R57: the opcode is refused exactly when it is none of 1 to 9 and 99, and it is refused by name. -/
def Obligations.UndefinedOpcodesAreRefused : Prop :=
  ∀ (iw : Word) (op : Int), decode iw = .error (.invalidOpcode op) ↔
    op = iw.toInt.tmod 100 ∧ ¬ (1 ≤ op ∧ op ≤ 9) ∧ op ≠ 99

/-- 30_encoding.md R51, R61: a word that selects an instruction is non-negative, and the instruction has the word's own
opcode and the modes of its digits, operand by operand; a word that decodes selects a legal one. -/
def Obligations.DecodedFieldsAreTheWords : Prop :=
  (∀ (iw : Word) (i : Instr), selectInstr iw = some i →
    0 ≤ iw.toInt ∧ iw.toInt % 100 = i.opcode ∧
    ∀ (k : Nat) (o : Role × Mode), i.operands[k]? = some o → o.2 = Mode.ofDigit (iw.toNat / 10 ^ (k + 2) % 10)) ∧
  (∀ (iw : Word) (i : Instr), decode iw = .ok i →
    i.wellFormed = true ∧ 0 ≤ iw.toInt ∧ iw.toInt % 100 = i.opcode ∧
    ∀ (k : Nat) (o : Role × Mode), i.operands[k]? = some o → o.2.digit = iw.toNat / 10 ^ (k + 2) % 10)

/-- 30_encoding.md R58, R59, R65: the word reported as an invalid mode is one whose first wrong operand has a digit 3 to
9, which is the digit reported, and the word reported as an invalid write target is one whose first wrong operand is a
write operand with digit 1. A mode digit is wrong when it is 3 or more, or 1 on a write operand. -/
def Obligations.ModeErrorsAreTheNamedOnes : Prop :=
  (∀ (iw : Word) (d : Nat), decode iw = .error (.invalidMode d) ↔
    ∃ k role, FirstWrongOperand iw k role ∧ d = iw.toNat / 10 ^ (k + 2) % 10 ∧ 3 ≤ d ∧ d ≤ 9) ∧
  (∀ iw : Word, decode iw = .error .invalidWriteTarget ↔
    ∃ k, FirstWrongOperand iw k .write ∧ iw.toNat / 10 ^ (k + 2) % 10 = 1)

/-! ## Reset -/

/-- 10_state.md R25, 70_reset_and_hazards.md R171: reset with nothing loaded is `new` of the empty program, and its
values. The values of `pin.dst` and the other fields without meaning are the model's (log entry 4) and not stated. -/
def Obligations.ResetHasTheStatedValues : Prop :=
  (∀ c : Config, newCore c [] = some State.reset) ∧
  State.reset.pc = 0#64 ∧ State.reset.rb = 0#64 ∧ State.reset.state = .running ∧
  State.reset.pin.valid = false ∧ State.reset.pin.ready = false ∧ State.reset.pout.valid = false ∧
  State.reset.fault.valid = false ∧ State.reset.msize = 0 ∧ ∀ a : Nat, Memory.read State.reset.mem a = 0#64

/-- 10_state.md R25, 70_reset_and_hazards.md R170, R171: `new` loads the program from address 0, 0 above it, and sets
every other element, for a program that fits the address space; a program longer than `PROG_MAX` makes no core. That it
does so too for a program longer than `MEM_MAX` that `PROG_MAX` admits is the model's choice (log entry 17). That the
extent is `MEM_INIT_FACTOR` times the length where that product exceeds `MEM_MAX`, on the hardware too, is the model's
choice (log entry 14): 10_state.md R25 is followed against the type `0 .. MEM_MAX` of R20. -/
def Obligations.NewLoadsTheProgram : Prop :=
  ∀ (c : Config) (program : List Word),
    (program.length ≤ c.progMax → program.length ≤ addrCount → ∃ s, newCore c program = some s ∧
      (∀ k : Nat, Memory.read s.mem k = program.getD k 0#64) ∧
      s.pc = 0#64 ∧ s.rb = 0#64 ∧ s.state = .running ∧ s.pin.valid = false ∧ s.pin.ready = false ∧
      s.pout.valid = false ∧ s.fault.valid = false ∧ s.msize = c.memInitFactor * program.length) ∧
    (c.progMax < program.length → newCore c program = none)

/-! ## Invariants -/

/-- 10_state.md R24: the invariants hold at reset. -/
def Obligations.ResetMeetsTheInvariants : Prop := State.reset.Inv

/-- 10_state.md R24: the invariants hold after `new`: on the hardware for every program it accepts, and under every
configuration whose initial extent covers the program. That the hardware's does is deduced from R24 (log entry 18). -/
def Obligations.NewMeetsTheInvariants : Prop :=
  (∀ (program : List Word) (s : State), newCore Config.chip program = some s → s.Inv) ∧
  ∀ (c : Config) (program : List Word) (s : State), 1 ≤ c.memInitFactor → program.length ≤ addrCount →
    newCore c program = some s → s.Inv

/-- 10_state.md R24: every step keeps the invariants, from every state that meets them. What a step does outside
`Running` is the model's choice (log entry 2). -/
def Obligations.StepKeepsTheInvariants : Prop :=
  ∀ s t : State, s.Inv → step s = .next t → t.Inv

/-- 10_state.md R24: every host operation on the hardware, `new` before anything else among them, leaves a core that
meets the invariants, whatever `run` does in between. -/
def Obligations.HostOperationsKeepTheInvariants : Prop :=
  ∀ (fuel : Nat) (op : HostOp) (core : Option State) (t : State) (r : Reply), (∀ s, core = some s → s.Inv) →
    serve Config.chip fuel op core = .reply r (some t) → t.Inv

/-- 60_exceptions.md R150, 20_memory.md R33, R45: from a state that meets the invariants a step always answers a next
state; every fault of the spec is one. What a step does outside `Running` is the model's choice (log entry 2). -/
def Obligations.StepAlwaysAnswersANextState : Prop :=
  ∀ s : State, s.Inv → ∃ t, step s = .next t

/-! ## The step -/

/-- 40_cycle_and_operands.md R70, R71, R72, 20_memory.md R43: a running core whose cell at the program counter decodes
runs exactly that instruction, and so does one whose cell has a defined opcode with mode digits that are not legal: the
checks of its operands are the instruction's own. The step adds nothing around it. -/
def Obligations.StepRunsTheDecodedInstruction : Prop :=
  ∀ (s : State) (i : Instr), s.state = .running →
    (decode (memRead s s.pc) = .ok i → step s = exec i s) ∧
    (selectInstr (memRead s s.pc) = some i → step s = exec i s)

/-- 60_exceptions.md R142, R150: a running core whose opcode is undefined takes `InvalidOpcode(iw rem 100)`, where the
remainder is 0 or 10 .. 98 of a word that is not negative, and -99 .. 0 of a negative one. -/
def Obligations.StepTakesInvalidOpcode : Prop :=
  ∀ (s : State) (op : Int), s.state = .running → op = (memRead s s.pc).toInt.tmod 100 →
    ¬ (1 ≤ op ∧ op ≤ 9) → op ≠ 99 →
    (0 ≤ (memRead s s.pc).toInt → op = 0 ∨ (10 ≤ op ∧ op ≤ 98)) ∧
    ((memRead s s.pc).toInt < 0 → -99 ≤ op ∧ op ≤ 0) ∧
    step s = .next { s with
      state := .faulted
      fault := { valid := true, cause := .invalidOpcode, info := BitVec.ofInt 64 op, pc := s.pc, iw := memRead s s.pc }
      pin := { s.pin with valid := false, ready := false }
      pout := { s.pout with valid := false } }

/-- 30_encoding.md R61, 40_cycle_and_operands.md R81, 60_exceptions.md R148: a running core faults on every word that is
no legal instruction. The fault is `InvalidOpcode` of an undefined opcode, and of a defined one the first of the
instruction's faults in the order of R148, so an earlier operand's fault comes before a later operand's mode. It changes
neither memory nor `pc`, `rb` or `msize`. -/
def Obligations.StepFaultsOnIllegalWords : Prop :=
  ∀ (s : State) (e : DecodeError), s.state = .running → 0 ≤ s.pc.toInt → decode (memRead s s.pc) = .error e →
    ∃ r : Raise,
      ((∃ op, e = .invalidOpcode op ∧ r = { cause := .invalidOpcode, info := BitVec.ofInt 64 op }) ∨
        (∃ i, selectInstr (memRead s s.pc) = some i ∧ i.wellFormed = false ∧ instrFault s i = some r)) ∧
      step s = .next { s with
        state := .faulted
        fault := { valid := true, cause := r.cause, info := r.info, pc := s.pc, iw := memRead s s.pc }
        pin := { s.pin with valid := false, ready := false }
        pout := { s.pout with valid := false } }

/-- 46_host_operations.md R122 (a), (b), (c): a halted core, a faulted core, and one waiting for an input not yet
supplied stay exactly as they are. That `step` does here what the host's next `run` does first is the model's choice (log entry 2). -/
def Obligations.StoppedCoresStayAsTheyAre : Prop :=
  ∀ s : State, (s.state = .halted ∨ s.state = .faulted ∨ (s.state = .suspendedForInput ∧ s.pin.ready = false)) →
    step s = .next s

/-- 46_host_operations.md R123: the resume after an output clears the slot and changes nothing else but the run state.
That `step` does here what the host's next `run` does first is the model's choice (log entry 2). -/
def Obligations.ResumeAfterOutputOnlyClearsTheSlot : Prop :=
  ∀ s : State, s.state = .suspendedForOutput →
    step s = .next { s with pout := { s.pout with valid := false }, state := .running }

/-- 46_host_operations.md R124: the resume after an input writes the supplied value to the recorded address and moves
`pc` by 2, whatever the cells of the IN hold now. That `step` does here what the host's next `run` does first is the
model's choice (log entry 2). -/
def Obligations.ResumeAfterInputCompletesTheWrite : Prop :=
  ∀ s : State, s.state = .suspendedForInput → s.pin.ready = true → 0 ≤ s.pc.toInt → 0 ≤ s.pin.dst.toInt →
    s.pc.toInt + 2 ≤ i64Max →
    step s = .next { s with
      mem := Memory.write s.mem s.pin.dst.toNat s.pin.value
      msize := extentAfter s s.pin.dst.toNat
      pc := s.pc + 2#64
      pin := { s.pin with valid := false, ready := false }
      state := .running }

/-- 46_host_operations.md R124, 60_exceptions.md R150: at the top of the address space the resume after an input faults,
the write is not performed and the slot is cleared. That `step` does here what the host's next `run` does first is the
model's choice (log entry 2). -/
def Obligations.ResumeAfterInputFaultsAtTheTop : Prop :=
  ∀ s : State, s.state = .suspendedForInput → s.pin.ready = true → i64Max < s.pc.toInt + 2 →
    step s = .next { s with
      state := .faulted
      fault := { valid := true, cause := .arithmeticOverflow, info := 0#64, pc := s.pc, iw := memRead s s.pc }
      pin := { s.pin with valid := false, ready := false }
      pout := { s.pout with valid := false } }

/-! ## Faults of instructions -/

/-- 40_cycle_and_operands.md R81, 60_exceptions.md R150: a step of a running core that ends faulted has written nothing
but the fault record, the slots' bits and the run state. -/
def Obligations.FaultsArePrecise : Prop :=
  ∀ s t : State, s.state = .running → step s = .next t → t.state = .faulted →
    t = { s with
      state := .faulted
      fault := { valid := true, cause := t.fault.cause, info := t.fault.info, pc := s.pc, iw := memRead s s.pc }
      pin := { s.pin with valid := false, ready := false }
      pout := { s.pout with valid := false } }

/-- 60_exceptions.md R148, R150: an instruction reports the first of its faults in the order of the rule, and takes it. -/
def Obligations.FirstFaultIsTaken : Prop :=
  ∀ (i : Instr) (s : State) (r : Raise), 0 ≤ s.pc.toInt → instrFault s i = some r →
    exec i s = .next { s with
      state := .faulted
      fault := { valid := true, cause := r.cause, info := r.info, pc := s.pc, iw := memRead s s.pc }
      pin := { s.pin with valid := false, ready := false }
      pout := { s.pout with valid := false } }

/-- 60_exceptions.md R147: which instruction can raise which fault. -/
def Obligations.InstructionsRaiseOnlyTheirFaults : Prop :=
  ∀ (i : Instr) (s t : State), s.state ≠ .faulted → exec i s = .next t → t.state = .faulted →
    i ≠ .halt ∧ t.fault.cause ≠ .invalidOpcode ∧
    (t.fault.cause = .invalidWriteTarget → i.opcode ∈ [1, 2, 3, 7, 8])

/-- 43_jump.md R103: a taken jump to a negative target raises `AddressError(target)` at the jump; the same target of a
jump that is not taken is harmless. -/
def Obligations.NegativeTargetOfATakenJumpFaults : Prop :=
  ∀ (a target : Mode) (s : State), 0 ≤ s.pc.toInt → firstOperandFault s 1 [(.read, a), (.read, target)] = none →
    (operandValue s 2 target).toInt < 0 →
    (operandValue s 1 a ≠ 0#64 → ∃ t, exec (.jt a target) s = .next t ∧ t.state = .faulted ∧ t.pc = s.pc ∧
      t.fault.cause = .addressError ∧ t.fault.info = operandValue s 2 target ∧ t.fault.pc = s.pc) ∧
    (operandValue s 1 a = 0#64 → ∃ t, exec (.jf a target) s = .next t ∧ t.state = .faulted ∧ t.pc = s.pc ∧
      t.fault.cause = .addressError ∧ t.fault.info = operandValue s 2 target ∧ t.fault.pc = s.pc) ∧
    (s.pc.toInt + 3 ≤ i64Max →
      (operandValue s 1 a = 0#64 → exec (.jt a target) s = .next { s with pc := s.pc + 3#64 }) ∧
      (operandValue s 1 a ≠ 0#64 → exec (.jf a target) s = .next { s with pc := s.pc + 3#64 }))

/-! ## What each instruction does when it raises no fault -/

/-- 41_arithmetic.md R90: ADD stores the exact sum and moves `pc` by 4. -/
def Obligations.AddStoresTheSum : Prop :=
  ∀ (a b dst : Mode) (s : State), 0 ≤ s.pc.toInt → instrFault s (.add a b dst) = none →
    exec (.add a b dst) s = .next { s with
      mem := Memory.write s.mem (operandAddress s 3 dst)
        (BitVec.ofInt 64 ((operandValue s 1 a).toInt + (operandValue s 2 b).toInt))
      msize := extentAfter s (operandAddress s 3 dst)
      pc := s.pc + 4#64 }

/-- 41_arithmetic.md R91: MUL stores the exact product and moves `pc` by 4. -/
def Obligations.MulStoresTheProduct : Prop :=
  ∀ (a b dst : Mode) (s : State), 0 ≤ s.pc.toInt → instrFault s (.mul a b dst) = none →
    exec (.mul a b dst) s = .next { s with
      mem := Memory.write s.mem (operandAddress s 3 dst)
        (BitVec.ofInt 64 ((operandValue s 1 a).toInt * (operandValue s 2 b).toInt))
      msize := extentAfter s (operandAddress s 3 dst)
      pc := s.pc + 4#64 }

/-- 42_compare.md R95, R97: LT stores 1 or 0, by signed comparison, and moves `pc` by 4. -/
def Obligations.LtStoresTheComparison : Prop :=
  ∀ (a b dst : Mode) (s : State), 0 ≤ s.pc.toInt → instrFault s (.lt a b dst) = none →
    exec (.lt a b dst) s = .next { s with
      mem := Memory.write s.mem (operandAddress s 3 dst)
        (if (operandValue s 1 a).toInt < (operandValue s 2 b).toInt then 1#64 else 0#64)
      msize := extentAfter s (operandAddress s 3 dst)
      pc := s.pc + 4#64 }

/-- 42_compare.md R96, R97: EQ stores 1 or 0, by equality of the whole value, and moves `pc` by 4. -/
def Obligations.EqStoresTheComparison : Prop :=
  ∀ (a b dst : Mode) (s : State), 0 ≤ s.pc.toInt → instrFault s (.eq a b dst) = none →
    exec (.eq a b dst) s = .next { s with
      mem := Memory.write s.mem (operandAddress s 3 dst)
        (if operandValue s 1 a = operandValue s 2 b then 1#64 else 0#64)
      msize := extentAfter s (operandAddress s 3 dst)
      pc := s.pc + 4#64 }

/-- 43_jump.md R100, R101: JT jumps when its first operand is not 0 and JF when it is; else `pc` moves by 3. Nothing
else changes. -/
def Obligations.JumpsSetThePc : Prop :=
  ∀ (a target : Mode) (s : State), 0 ≤ s.pc.toInt →
    (instrFault s (.jt a target) = none →
      exec (.jt a target) s =
        .next { s with pc := if operandValue s 1 a ≠ 0#64 then operandValue s 2 target else s.pc + 3#64 }) ∧
    (instrFault s (.jf a target) = none →
      exec (.jf a target) s =
        .next { s with pc := if operandValue s 1 a = 0#64 then operandValue s 2 target else s.pc + 3#64 })

/-- 44_io.md R105: IN records the resolved destination and suspends; `pc`, `rb` and memory stay. -/
def Obligations.InRecordsTheRequest : Prop :=
  ∀ (dst : Mode) (s : State), 0 ≤ s.pc.toInt → instrFault s (.inp dst) = none →
    exec (.inp dst) s = .next { s with
      pin := { s.pin with valid := true, dst := BitVec.ofNat 64 (operandAddress s 1 dst), ready := false }
      state := .suspendedForInput }

/-- 44_io.md R106: OUT surfaces the operand's value, moves `pc` by 2 and suspends. -/
def Obligations.OutSurfacesTheValue : Prop :=
  ∀ (a : Mode) (s : State), 0 ≤ s.pc.toInt → instrFault s (.out a) = none →
    exec (.out a) s = .next { s with
      pout := { valid := true, value := operandValue s 1 a }
      pc := s.pc + 2#64
      state := .suspendedForOutput }

/-- 45_relbase_halt.md R112: ARB adds its operand, resolved with the old base, to the relative base and moves `pc` by 2. -/
def Obligations.ArbAdjustsTheRelativeBase : Prop :=
  ∀ (a : Mode) (s : State), 0 ≤ s.pc.toInt → instrFault s (.arb a) = none →
    exec (.arb a) s = .next { s with
      rb := BitVec.ofInt 64 (s.rb.toInt + (operandValue s 1 a).toInt)
      pc := s.pc + 2#64 }

/-- 45_relbase_halt.md R113: HALT writes the run state and nothing else, in every state. -/
def Obligations.HaltOnlyHalts : Prop :=
  ∀ s : State, exec .halt s = .next { s with state := .halted }

/-! ## Frames -/

/-- 20_memory.md R33, R37: ADD, MUL, LT and EQ, where they do not fault, leave every register and slot but `pc`, and
every cell but the one their third operand addresses. -/
def Obligations.StoringInstructionsFrame : Prop :=
  ∀ (i : Instr) (a b dst : Mode) (s t : State),
    (i = .add a b dst ∨ i = .mul a b dst ∨ i = .lt a b dst ∨ i = .eq a b dst) →
    0 ≤ s.pc.toInt → s.state ≠ .faulted → exec i s = .next t → t.state ≠ .faulted →
    t.rb = s.rb ∧ t.state = s.state ∧ t.pin = s.pin ∧ t.pout = s.pout ∧ t.fault = s.fault ∧
    ∀ x : Nat, x ≠ operandAddress s 3 dst → Memory.read t.mem x = Memory.read s.mem x

/-- 20_memory.md R37, 43_jump.md R100, 44_io.md R105, R106, 45_relbase_halt.md R112, R113: the instructions that store
nothing leave every cell and the extent; JT and JF write only `pc`, ARB only `rb` and `pc`, OUT only `pout`, `pc` and the
run state, IN only `pin` and the run state, HALT only the run state. -/
def Obligations.OtherInstructionsFrame : Prop :=
  ∀ (i : Instr) (s t : State), i.opcode ∈ [3, 4, 5, 6, 9, 99] → s.state ≠ .faulted → exec i s = .next t →
    t.state ≠ .faulted →
    (∀ x : Nat, Memory.read t.mem x = Memory.read s.mem x) ∧ t.msize = s.msize ∧ t.fault = s.fault ∧
    (i.opcode ≠ 9 → t.rb = s.rb) ∧ (i.opcode ≠ 3 → t.pin = s.pin) ∧ (i.opcode ≠ 4 → t.pout = s.pout) ∧
    (i.opcode = 3 ∨ i.opcode = 99 → t.pc = s.pc) ∧ (i.opcode ∈ [5, 6, 9] → t.state = s.state)

/-! ## The shared operations -/

/-- 41_arithmetic.md R92: `add64` under each overflow policy. -/
def Obligations.AddUnderEachPolicy : Prop :=
  ∀ x y : Word,
    (i64Min ≤ x.toInt + y.toInt → x.toInt + y.toInt ≤ i64Max →
      ∀ p, ∃ w, add64 p x y = .ok w ∧ w.toInt = x.toInt + y.toInt) ∧
    (¬ (i64Min ≤ x.toInt + y.toInt ∧ x.toInt + y.toInt ≤ i64Max) →
      add64 .fault x y = .error { cause := .arithmeticOverflow, info := 0#64 } ∧
      (∃ w, add64 .wrap x y = .ok w ∧ w.toInt = (x.toInt + y.toInt + 2 ^ 63) % 2 ^ 64 - 2 ^ 63) ∧
      (∃ w, add64 .saturate x y = .ok w ∧ w.toInt = if i64Max < x.toInt + y.toInt then i64Max else i64Min))

/-- 41_arithmetic.md R93: `mul64` under each overflow policy. -/
def Obligations.MulUnderEachPolicy : Prop :=
  ∀ x y : Word,
    (i64Min ≤ x.toInt * y.toInt → x.toInt * y.toInt ≤ i64Max →
      ∀ p, ∃ w, mul64 p x y = .ok w ∧ w.toInt = x.toInt * y.toInt) ∧
    (¬ (i64Min ≤ x.toInt * y.toInt ∧ x.toInt * y.toInt ≤ i64Max) →
      mul64 .fault x y = .error { cause := .arithmeticOverflow, info := 0#64 } ∧
      (∃ w, mul64 .wrap x y = .ok w ∧ w.toInt = (x.toInt * y.toInt + 2 ^ 63) % 2 ^ 64 - 2 ^ 63) ∧
      (∃ w, mul64 .saturate x y = .ok w ∧ w.toInt = if i64Max < x.toInt * y.toInt then i64Max else i64Min))

/-- 40_cycle_and_operands.md R76: relative mode dereferences `rb + k` for every base and offset, negative ones among
them, whenever the sum is an address; the sum is `add64`'s under every overflow policy, and a negative one is an
`AddressError` with that sum. -/
def Obligations.RelativeModeDereferencesTheSum : Prop :=
  ∀ (c : Config) (s : State) (w : Word),
    (0 ≤ s.rb.toInt + w.toInt → s.rb.toInt + w.toInt ≤ i64Max →
      resolveRead c s .relative w = .ok (Memory.read s.mem (s.rb.toInt + w.toInt).toNat)) ∧
    (∀ ea, add64 c.overflowPolicy s.rb w = .ok ea →
      (ea.toInt < 0 → resolveRead c s .relative w = .error { cause := .addressError, info := ea }) ∧
      (0 ≤ ea.toInt → resolveRead c s .relative w = .ok (Memory.read s.mem ea.toNat))) ∧
    (∀ r, add64 c.overflowPolicy s.rb w = .error r → resolveRead c s .relative w = .error r)

/-- 20_memory.md R33, R34: on the hardware a write to an address succeeds, is read back, leaves every other cell, grows
the extent to exactly `a + 1` when the cell lies beyond it, and changes nothing else. -/
def Obligations.WritesChangeOneCell : Prop :=
  ∀ (s : State) (a v : Word), Memory.wf s.mem = true → 0 ≤ a.toInt →
    ∃ t, memWrite Config.chip s a v = .ok t ∧ memRead t a = v ∧
      (∀ b : Word, b ≠ a → memRead t b = memRead s b) ∧
      t.msize = (if s.msize ≤ a.toNat then a.toNat + 1 else s.msize) ∧
      t.pc = s.pc ∧ t.rb = s.rb ∧ t.state = s.state ∧ t.pin = s.pin ∧ t.pout = s.pout ∧ t.fault = s.fault

/-! ## Rules over all instructions -/

/-- 20_memory.md R34: the extent never decreases. -/
def Obligations.TheExtentNeverShrinks : Prop :=
  ∀ s t : State, step s = .next t → s.msize ≤ t.msize

/-- 10_state.md R15: only ARB changes the relative base. -/
def Obligations.OnlyArbChangesTheRelativeBase : Prop :=
  ∀ s t : State, step s = .next t → t.rb ≠ s.rb →
    s.state = .running ∧ ∃ m, decode (memRead s s.pc) = .ok (.arb m)

/-- 20_memory.md R37: memory changes only in a step of ADD, MUL, LT or EQ, or in the resume of an IN. That the resume
is a step is the model's choice (log entry 2). -/
def Obligations.OnlyStoresAndResumesChangeMemory : Prop :=
  ∀ s t : State, step s = .next t → t.mem ≠ s.mem →
    (s.state = .running ∧ ∃ i, decode (memRead s s.pc) = .ok i ∧ i.opcode ∈ [1, 2, 7, 8]) ∨
    (s.state = .suspendedForInput ∧ s.pin.ready = true)

/-- 10_state.md R12, 43_jump.md R102: a step that leaves `pc` anywhere but at the instruction or at the fall-through
address is a taken jump. -/
def Obligations.OnlyJumpsLeaveTheStride : Prop :=
  ∀ (s t : State) (i : Instr), s.state = .running → 0 ≤ s.pc.toInt → decode (memRead s s.pc) = .ok i →
    step s = .next t → t.pc ≠ s.pc → t.pc ≠ s.pc + BitVec.ofNat 64 i.width → i.opcode = 5 ∨ i.opcode = 6

/-- 10_state.md R24 (I8): when a step suspends a running core for input, the cell at the program counter is an IN, and
`pc` has not moved. -/
def Obligations.InputSuspensionIsAtAnIn : Prop :=
  ∀ s t : State, s.state = .running → step s = .next t → t.state = .suspendedForInput →
    t.pc = s.pc ∧ (memRead t t.pc).toInt.tmod 100 = 3

/-- 20_memory.md R43: an ADD, MUL, LT or EQ that stores a legal instruction word over the next instruction's first cell
is followed by that new instruction, and so is the resume of an IN. That the resume is a step is the model's choice (log
entry 2). -/
def Obligations.StoresAreSeenByTheNextFetch : Prop :=
  (∀ (stored : Instr) (a b dst : Mode) (v : Word) (s : State) (i : Instr), s.Inv → s.state = .running →
    (stored = .add a b dst ∧ v = BitVec.ofInt 64 ((operandValue s 1 a).toInt + (operandValue s 2 b).toInt) ∨
      stored = .mul a b dst ∧ v = BitVec.ofInt 64 ((operandValue s 1 a).toInt * (operandValue s 2 b).toInt) ∨
      stored = .lt a b dst ∧ v = (if (operandValue s 1 a).toInt < (operandValue s 2 b).toInt then 1#64 else 0#64) ∨
      stored = .eq a b dst ∧ v = (if operandValue s 1 a = operandValue s 2 b then 1#64 else 0#64)) →
    decode (memRead s s.pc) = .ok stored → instrFault s stored = none →
    operandAddress s 3 dst = s.pc.toNat + 4 → decode v = .ok i →
    ∃ t, step s = .next t ∧ t.pc.toNat = s.pc.toNat + 4 ∧ step t = exec i t) ∧
  (∀ (s : State) (i : Instr), s.Inv → s.state = .suspendedForInput → s.pin.ready = true →
    s.pc.toInt + 2 ≤ i64Max → s.pin.dst.toNat = s.pc.toNat + 2 → decode s.pin.value = .ok i →
    ∃ t, step s = .next t ∧ t.pc.toNat = s.pc.toNat + 2 ∧ step t = exec i t)

/-- 10_state.md R20: no step depends on the extent: with any other extent it does the same, but for the extent itself. -/
def Obligations.TheExtentIsInvisible : Prop :=
  ∀ (s t : State) (extent : Nat), step s = .next t →
    ∃ e, step { s with msize := extent } = .next { t with msize := e }

/-- 41_arithmetic.md R92: a step that does not raise `ArithmeticOverflow` under `Fault` does the same under every
policy. -/
def Obligations.FaultFreeStepsAgreeUnderEveryPolicy : Prop :=
  ∀ (c : Config) (p : OverflowPolicy) (s t : State),
    stepUnder { c with overflowPolicy := .fault } s = .next t →
    ¬ (t.state = .faulted ∧ t.fault.cause = .arithmeticOverflow) →
    stepUnder { c with overflowPolicy := p } s = .next t

/-! ## Host operations -/

/-- 46_host_operations.md R125: `supply` latches the value of a request not yet answered, and does nothing in every other
situation. -/
def Obligations.SupplyAnswersOneRequest : Prop :=
  ∀ (s : State) (v : Word),
    (s.state = .suspendedForInput → s.pin.valid = true → s.pin.ready = false →
      supply s v = { s with pin := { s.pin with value := v, ready := true } }) ∧
    (s.state ≠ .suspendedForInput ∨ s.pin.valid = false ∨ s.pin.ready = true → supply s v = s) ∧
    ∀ v', supply (supply s v) v' = supply s v

/-- 44_io.md R105, 46_host_operations.md R124, R125: an IN, the answer to it and the resume put the value at the IN's
destination and leave `pc` two cells on, running. What a step does outside `Running` is the model's choice (log entry 2). -/
def Obligations.AnsweredInputArrives : Prop :=
  ∀ (dst : Mode) (s : State) (v : Word), s.Inv → s.state = .running →
    decode (memRead s s.pc) = .ok (.inp dst) → instrFault s (.inp dst) = none → s.pc.toInt + 2 ≤ i64Max →
    ∃ t u, step s = .next t ∧ t.state = .suspendedForInput ∧ step t = .next t ∧ step (supply t v) = .next u ∧
      u.state = .running ∧ u.pc = s.pc + 2#64 ∧ u.pin.valid = false ∧
      Memory.read u.mem (operandAddress s 1 dst) = v ∧
      ∀ x : Nat, x ≠ operandAddress s 1 dst → Memory.read u.mem x = Memory.read s.mem x

/-- 46_host_operations.md R122: what `run` does, from each run state. From `Running` it steps, and goes on from the next
state or returns there; from a suspended state that can be resumed it goes on from what the resume leaves, which takes no
step of the bound; in the other stopped states it returns at once and changes nothing. Its step is the machine's. The
bound on the steps is the model's (log entry 12), and that a resume is a step too (log entry 2). -/
def Obligations.RunIsTheResumeAndTheSteps : Prop :=
  (∀ s : State, stepUnder Config.chip s = step s) ∧
  ∀ (c : Config) (n : Nat) (s t : State), stepUnder c s = .next t →
    (s.state = .running → t.state = .running → run c (n + 1) s = run c n t) ∧
    (s.state = .running → t.state ≠ .running → ∃ r, run c (n + 1) s = .returned r t) ∧
    (s.state = .suspendedForInput → s.pin.ready = false → run c n s = .returned .waitingForInput s) ∧
    (s.state = .suspendedForInput ∧ s.pin.ready = true ∨ s.state = .suspendedForOutput →
      (t.state = .running ∨ t.state = .faulted) ∧
      (t.state = .running → run c n s = run c n t) ∧
      (t.state = .faulted →
        run c n s = .returned (.fault t.fault.cause t.fault.info t.fault.pc t.fault.iw) t)) ∧
    (s.state = .halted → run c n s = .returned .halted s) ∧
    (s.state = .faulted →
      run c n s = .returned (.fault s.fault.cause s.fault.info s.fault.pc s.fault.iw) s)

/-- 46_host_operations.md R122, R131, 10_state.md R24 (I9): a `run` that returns leaves a core that is not running, and
its result is the one of the state it stopped in. The bound on the steps is the model's (log entry 12). -/
def Obligations.RunReturnsTheStopItReached : Prop :=
  ∀ (c : Config) (fuel : Nat) (s t : State) (r : RunResult), run c fuel s = .returned r t →
    t.state ≠ .running ∧
    (r = .halted ↔ t.state = .halted) ∧ (r = .waitingForInput ↔ t.state = .suspendedForInput) ∧
    (∀ v, r = .output v ↔ t.state = .suspendedForOutput ∧ v = t.pout.value) ∧
    (∀ k i p w, r = .fault k i p w ↔
      t.state = .faulted ∧ k = t.fault.cause ∧ i = t.fault.info ∧ p = t.fault.pc ∧ w = t.fault.iw)

/-- 44_io.md R108: the result of a `run` does not depend on the bound under which it was found to return.
The bound is the model's (log entry 12). -/
def Obligations.RunResultIgnoresTheBound : Prop :=
  ∀ (c : Config) (fuel more : Nat) (s t : State) (r : RunResult), run c fuel s = .returned r t →
    run c (fuel + more) s = .returned r t

/-- 46_host_operations.md R127, R132, 60_exceptions.md R161: `supply`, `peek`, `poke` and `debugDump` cannot touch `pc`,
`rb`, the run state, the output slot, the fault record or a recorded destination. -/
def Obligations.HostCannotTouchRegisters : Prop :=
  ∀ (c : Config) (fuel : Nat) (op : HostOp) (s t : State) (r : Reply), op ≠ .run → (∀ program, op ≠ .new program) →
    serve c fuel op (some s) = .reply r (some t) →
    t.pc = s.pc ∧ t.rb = s.rb ∧ t.state = s.state ∧ t.pout = s.pout ∧ t.fault = s.fault ∧
    t.pin.valid = s.pin.valid ∧ t.pin.dst = s.pin.dst

/-- 46_host_operations.md R122, R130, 60_exceptions.md R151, R152: no sequence of host operations without `new` takes a
core out of `Halted` or `Faulted`, moves its `pc` or `rb`, or changes its fault record. -/
def Obligations.HaltedAndFaultedAreForGood : Prop :=
  ∀ (c : Config) (fuel : Nat) (ops : List HostOp) (s : State) (rs : List Reply) (last : Option State),
    (s.state = .halted ∨ s.state = .faulted) → (∀ program, HostOp.new program ∉ ops) →
    serveAll c fuel ops (some s) = some (rs, last) →
    ∃ t, last = some t ∧ t.state = s.state ∧ t.pc = s.pc ∧ t.rb = s.rb ∧ t.fault = s.fault

/-- 46_host_operations.md R126, 60_exceptions.md R153: `peek` of an address answers the cell, of a negative number the
error `AddressError`, and changes nothing, in every run state. -/
def Obligations.PeekAnswersTheCell : Prop :=
  ∀ (c : Config) (fuel : Nat) (s : State) (a : Word),
    (0 ≤ a.toInt → serve c fuel (.peek a) (some s) = .reply (.value (Memory.read s.mem a.toNat)) (some s)) ∧
    (a.toInt < 0 → serve c fuel (.peek a) (some s) = .reply (.addressError a) (some s))

/-- 46_host_operations.md R127, 60_exceptions.md R153: `poke` of an address writes that cell, growing the store, and
nothing else, in every run state, and the next fetch sees it; of a negative number it answers the error `AddressError`
and changes nothing. -/
def Obligations.PokeWritesOneCell : Prop :=
  ∀ (fuel : Nat) (s : State) (a v : Word), Memory.wf s.mem = true →
    (0 ≤ a.toInt → ∃ t, serve Config.chip fuel (.poke a v) (some s) = .reply .done (some t) ∧
      Memory.read t.mem a.toNat = v ∧ (∀ x : Nat, x ≠ a.toNat → Memory.read t.mem x = Memory.read s.mem x) ∧
      t = { s with mem := t.mem, msize := extentAfter s a.toNat } ∧
      (a = s.pc → s.state = .running → ∀ i : Instr, decode v = .ok i → step t = exec i t)) ∧
    (a.toInt < 0 → serve Config.chip fuel (.poke a v) (some s) = .reply (.addressError a) (some s))

/-- 46_host_operations.md R129: `debugDump` answers the cells `0 .. msize-1` in order and changes nothing. -/
def Obligations.DebugDumpAnswersTheStore : Prop :=
  ∀ (c : Config) (fuel : Nat) (s : State), ∃ l : List Word,
    serve c fuel .debugDump (some s) = .reply (.cells l) (some s) ∧ l.length = s.msize ∧
    ∀ k : Nat, k < s.msize → l[k]? = some (Memory.read s.mem k)

/-- 60_exceptions.md R164, 46_host_operations.md R133: an operation on one core leaves every other core untouched. -/
def Obligations.OtherCoresAreUntouched : Prop :=
  ∀ (c : Config) (fuel : Nat) (op : HostOp) (k j : Nat) (cores after : List (Option State)) (r : Reply),
    serveAt c fuel op k cores = some (r, after) → j ≠ k → after[j]? = cores[j]?
end

