-- ==== Sys2Proof/Laws/State.lean ====
section
/-! SUPPORT. Each named update of State, field by field. -/

namespace Sys2Proof.Machine

variable (s : State)

@[simp] theorem State.storeCell_pc (c : Config) (a : Nat) (v : Word) : (s.storeCell c a v).pc = s.pc := rfl
@[simp] theorem State.storeCell_rb (c : Config) (a : Nat) (v : Word) : (s.storeCell c a v).rb = s.rb := rfl
@[simp] theorem State.storeCell_state (c : Config) (a : Nat) (v : Word) : (s.storeCell c a v).state = s.state := rfl
@[simp] theorem State.storeCell_pin (c : Config) (a : Nat) (v : Word) : (s.storeCell c a v).pin = s.pin := rfl
@[simp] theorem State.storeCell_pout (c : Config) (a : Nat) (v : Word) : (s.storeCell c a v).pout = s.pout := rfl
@[simp] theorem State.storeCell_fault (c : Config) (a : Nat) (v : Word) : (s.storeCell c a v).fault = s.fault := rfl
@[simp] theorem State.storeCell_mem (c : Config) (a : Nat) (v : Word) : (s.storeCell c a v).mem = Memory.write s.mem a v := rfl
@[simp] theorem State.storeCell_msize (c : Config) (a : Nat) (v : Word) : (s.storeCell c a v).msize = grownExtent c s.msize a := rfl

@[simp] theorem State.setPc_pc (target : Word) : (s.setPc target).pc = target := rfl
@[simp] theorem State.setPc_rb (target : Word) : (s.setPc target).rb = s.rb := rfl
@[simp] theorem State.setPc_state (target : Word) : (s.setPc target).state = s.state := rfl
@[simp] theorem State.setPc_pin (target : Word) : (s.setPc target).pin = s.pin := rfl
@[simp] theorem State.setPc_pout (target : Word) : (s.setPc target).pout = s.pout := rfl
@[simp] theorem State.setPc_fault (target : Word) : (s.setPc target).fault = s.fault := rfl
@[simp] theorem State.setPc_mem (target : Word) : (s.setPc target).mem = s.mem := rfl
@[simp] theorem State.setPc_msize (target : Word) : (s.setPc target).msize = s.msize := rfl

@[simp] theorem State.setRb_pc (base : Word) : (s.setRb base).pc = s.pc := rfl
@[simp] theorem State.setRb_rb (base : Word) : (s.setRb base).rb = base := rfl
@[simp] theorem State.setRb_state (base : Word) : (s.setRb base).state = s.state := rfl
@[simp] theorem State.setRb_pin (base : Word) : (s.setRb base).pin = s.pin := rfl
@[simp] theorem State.setRb_pout (base : Word) : (s.setRb base).pout = s.pout := rfl
@[simp] theorem State.setRb_fault (base : Word) : (s.setRb base).fault = s.fault := rfl
@[simp] theorem State.setRb_mem (base : Word) : (s.setRb base).mem = s.mem := rfl
@[simp] theorem State.setRb_msize (base : Word) : (s.setRb base).msize = s.msize := rfl

@[simp] theorem State.setRun_pc (r : RunState) : (s.setRun r).pc = s.pc := rfl
@[simp] theorem State.setRun_rb (r : RunState) : (s.setRun r).rb = s.rb := rfl
@[simp] theorem State.setRun_state (r : RunState) : (s.setRun r).state = r := rfl
@[simp] theorem State.setRun_pin (r : RunState) : (s.setRun r).pin = s.pin := rfl
@[simp] theorem State.setRun_pout (r : RunState) : (s.setRun r).pout = s.pout := rfl
@[simp] theorem State.setRun_fault (r : RunState) : (s.setRun r).fault = s.fault := rfl
@[simp] theorem State.setRun_mem (r : RunState) : (s.setRun r).mem = s.mem := rfl
@[simp] theorem State.setRun_msize (r : RunState) : (s.setRun r).msize = s.msize := rfl

@[simp] theorem State.requestInput_pc (d : Word) : (s.requestInput d).pc = s.pc := rfl
@[simp] theorem State.requestInput_rb (d : Word) : (s.requestInput d).rb = s.rb := rfl
@[simp] theorem State.requestInput_state (d : Word) : (s.requestInput d).state = .suspendedForInput := rfl
@[simp] theorem State.requestInput_pin (d : Word) : (s.requestInput d).pin = { s.pin with valid := true, dst := d, ready := false } := rfl
@[simp] theorem State.requestInput_pout (d : Word) : (s.requestInput d).pout = s.pout := rfl
@[simp] theorem State.requestInput_fault (d : Word) : (s.requestInput d).fault = s.fault := rfl
@[simp] theorem State.requestInput_mem (d : Word) : (s.requestInput d).mem = s.mem := rfl
@[simp] theorem State.requestInput_msize (d : Word) : (s.requestInput d).msize = s.msize := rfl

@[simp] theorem State.latchInput_pc (v : Word) : (s.latchInput v).pc = s.pc := rfl
@[simp] theorem State.latchInput_rb (v : Word) : (s.latchInput v).rb = s.rb := rfl
@[simp] theorem State.latchInput_state (v : Word) : (s.latchInput v).state = s.state := rfl
@[simp] theorem State.latchInput_pin (v : Word) : (s.latchInput v).pin = { s.pin with value := v, ready := true } := rfl
@[simp] theorem State.latchInput_pout (v : Word) : (s.latchInput v).pout = s.pout := rfl
@[simp] theorem State.latchInput_fault (v : Word) : (s.latchInput v).fault = s.fault := rfl
@[simp] theorem State.latchInput_mem (v : Word) : (s.latchInput v).mem = s.mem := rfl
@[simp] theorem State.latchInput_msize (v : Word) : (s.latchInput v).msize = s.msize := rfl

@[simp] theorem State.clearInput_pc : (s.clearInput).pc = s.pc := rfl
@[simp] theorem State.clearInput_rb : (s.clearInput).rb = s.rb := rfl
@[simp] theorem State.clearInput_state : (s.clearInput).state = s.state := rfl
@[simp] theorem State.clearInput_pin : (s.clearInput).pin = { s.pin with valid := false, ready := false } := rfl
@[simp] theorem State.clearInput_pout : (s.clearInput).pout = s.pout := rfl
@[simp] theorem State.clearInput_fault : (s.clearInput).fault = s.fault := rfl
@[simp] theorem State.clearInput_mem : (s.clearInput).mem = s.mem := rfl
@[simp] theorem State.clearInput_msize : (s.clearInput).msize = s.msize := rfl

@[simp] theorem State.surfaceOutput_pc (v : Word) : (s.surfaceOutput v).pc = s.pc := rfl
@[simp] theorem State.surfaceOutput_rb (v : Word) : (s.surfaceOutput v).rb = s.rb := rfl
@[simp] theorem State.surfaceOutput_state (v : Word) : (s.surfaceOutput v).state = .suspendedForOutput := rfl
@[simp] theorem State.surfaceOutput_pin (v : Word) : (s.surfaceOutput v).pin = s.pin := rfl
@[simp] theorem State.surfaceOutput_pout (v : Word) : (s.surfaceOutput v).pout = { valid := true, value := v } := rfl
@[simp] theorem State.surfaceOutput_fault (v : Word) : (s.surfaceOutput v).fault = s.fault := rfl
@[simp] theorem State.surfaceOutput_mem (v : Word) : (s.surfaceOutput v).mem = s.mem := rfl
@[simp] theorem State.surfaceOutput_msize (v : Word) : (s.surfaceOutput v).msize = s.msize := rfl

@[simp] theorem State.clearOutput_pc : (s.clearOutput).pc = s.pc := rfl
@[simp] theorem State.clearOutput_rb : (s.clearOutput).rb = s.rb := rfl
@[simp] theorem State.clearOutput_state : (s.clearOutput).state = s.state := rfl
@[simp] theorem State.clearOutput_pin : (s.clearOutput).pin = s.pin := rfl
@[simp] theorem State.clearOutput_pout : (s.clearOutput).pout = { s.pout with valid := false } := rfl
@[simp] theorem State.clearOutput_fault : (s.clearOutput).fault = s.fault := rfl
@[simp] theorem State.clearOutput_mem : (s.clearOutput).mem = s.mem := rfl
@[simp] theorem State.clearOutput_msize : (s.clearOutput).msize = s.msize := rfl

@[simp] theorem State.takeFault_pc (r : Raise) : (s.takeFault r).pc = s.pc := rfl
@[simp] theorem State.takeFault_rb (r : Raise) : (s.takeFault r).rb = s.rb := rfl
@[simp] theorem State.takeFault_state (r : Raise) : (s.takeFault r).state = .faulted := rfl
@[simp] theorem State.takeFault_pin (r : Raise) : (s.takeFault r).pin = { s.pin with valid := false, ready := false } := rfl
@[simp] theorem State.takeFault_pout (r : Raise) : (s.takeFault r).pout = { s.pout with valid := false } := rfl
@[simp] theorem State.takeFault_fault (r : Raise) : (s.takeFault r).fault = { valid := true, cause := r.cause, info := r.info, pc := s.pc, iw := memRead s s.pc } := rfl
@[simp] theorem State.takeFault_mem (r : Raise) : (s.takeFault r).mem = s.mem := rfl
@[simp] theorem State.takeFault_msize (r : Raise) : (s.takeFault r).msize = s.msize := rfl

end Sys2Proof.Machine
end

