-- ==== Sys2Proof/Laws/Check.lean ====
section
/-! SUPPORT. Checks: how they chain, and what each primitive check can answer. -/

namespace Sys2Proof.Machine

@[simp] theorem Check.ok_bind {α β : Type} (a : α) (f : α → Check β) : ((Except.ok a : Check α) >>= f) = f a := rfl

@[simp] theorem Check.error_bind {α β : Type} (r : Raise) (f : α → Check β) :
    ((Except.error r : Check α) >>= f) = .error r := rfl

@[simp] theorem Check.pure_eq {α : Type} (a : α) : (pure a : Check α) = .ok a := rfl

/-- A chain answers a value exactly when both parts do. -/
theorem Check.bind_eq_ok {α β : Type} {x : Check α} {f : α → Check β} {b : β} :
    (x >>= f) = .ok b ↔ ∃ a, x = .ok a ∧ f a = .ok b := by
  cases x <;> simp

/-- A chain raises the fault of the first part that raises one. -/
theorem Check.bind_eq_error {α β : Type} {x : Check α} {f : α → Check β} {r : Raise} :
    (x >>= f) = .error r ↔ x = .error r ∨ ∃ a, x = .ok a ∧ f a = .error r := by
  cases x <;> simp

@[simp] theorem settle_ok (s : State) (o : Outcome) : settle s (.ok o) = o := rfl

@[simp] theorem settle_error (s : State) (r : Raise) : settle s (.error r) = .next (s.takeFault r) := rfl

/-- An instruction that ends in a next state has taken a fault or committed one (60_exceptions.md R150). -/
theorem settle_eq_next {s t : State} {x : Check Outcome} (h : settle s x = .next t) :
    (∃ r, x = .error r ∧ t = s.takeFault r) ∨ x = .ok (.next t) := by
  cases x with
  | error r => left; exact ⟨r, rfl, by simpa [settle] using h.symm⟩
  | ok o => right; rw [settle_ok] at h; rw [h]

/-- `checkAddress` passes the address on, and it is not negative. -/
theorem checkAddress_eq_ok {a b : Word} : checkAddress a = .ok b ↔ 0 ≤ a.toInt ∧ b = a := by
  unfold checkAddress
  split
  · simp; omega
  · simp only [Except.ok.injEq]
    constructor
    · rintro rfl; exact ⟨by omega, rfl⟩
    · rintro ⟨-, rfl⟩; rfl

theorem checkAddress_of_nonneg {a : Word} (h : 0 ≤ a.toInt) : checkAddress a = .ok a :=
  checkAddress_eq_ok.mpr ⟨h, rfl⟩

theorem checkAddress_of_neg {a : Word} (h : a.toInt < 0) :
    checkAddress a = .error { cause := .addressError, info := a } := by
  unfold checkAddress; rw [if_pos h]

/-- A non-negative word is an address below 2^63. -/
theorem toNat_lt_of_nonneg {a : Word} (h : 0 ≤ a.toInt) : a.toNat < addrCount := by
  unfold addrCount
  have := BitVec.toInt_eq_toNat_cond a
  have := a.isLt
  split at * <;> omega

/-- A non-negative word read as an integer and as a natural number is the same. -/
theorem toInt_eq_toNat {a : Word} (h : 0 ≤ a.toInt) : a.toInt = a.toNat := by
  have := BitVec.toInt_eq_toNat_cond a
  have := a.isLt
  split at * <;> omega

/-- The word of an integer in `I64` is that integer (00_scope.md R6). -/
theorem toInt_ofInt {x : Int} (h : InI64 x) : (Word.ofInt x).toInt = x := by
  obtain ⟨h1, h2⟩ := h
  unfold i64Min at h1; unfold i64Max at h2
  rw [BitVec.toInt_ofInt]
  apply Int.bmod_eq_of_le <;> omega

/-- Every word is in `I64`. -/
theorem inI64_toInt (a : Word) : InI64 a.toInt := by
  unfold InI64 i64Min i64Max
  have := BitVec.le_toInt a
  have := BitVec.toInt_lt (x := a)
  norm_num at *
  omega

@[simp] theorem ofInt_toInt (a : Word) : Word.ofInt a.toInt = a := BitVec.ofInt_toInt

/-- A representable result is exact under every policy (41_arithmetic.md R92, R93). -/
theorem narrow_of_inI64 (p : OverflowPolicy) {x : Int} (h : InI64 x) : narrow p x = .ok (Word.ofInt x) := by
  unfold narrow; rw [if_pos h]

/-- An unrepresentable result faults under the decided policy (41_arithmetic.md R92). -/
theorem narrow_fault_of_not_inI64 {x : Int} (h : ¬ InI64 x) :
    narrow .fault x = .error { cause := .arithmeticOverflow, info := 0#64 } := by
  unfold narrow; rw [if_neg h]

/-- `narrow` under the decided policy: the exact result, or the fault. -/
theorem narrow_fault_eq_ok {x : Int} {w : Word} : narrow .fault x = .ok w ↔ InI64 x ∧ w = Word.ofInt x := by
  by_cases h : InI64 x
  · rw [narrow_of_inI64 _ h, Except.ok.injEq]
    exact ⟨fun e => ⟨h, e.symm⟩, fun e => e.2.symm⟩
  · rw [narrow_fault_of_not_inI64 h]
    exact ⟨(nomatch ·), fun e => absurd e.1 h⟩

end Sys2Proof.Machine
end

