-- ==== Sys2Proof/Laws/Encode.lean ====
section
/-! SUPPORT. What the decoder and the encoder answer, once each: the legal instructions, the digits, the opcode. -/

namespace Sys2Proof

/-- The decoder answers an instruction exactly when the opcode selects it and no operand is wrong (30_encoding.md R65). -/
theorem decode_eq_ok {iw : Word} {i : Instr} :
    decode iw = .ok i ↔ selectInstr iw = some i ∧ firstOperandError i.operands = none := by
  unfold decode
  cases selectInstr iw with
  | none => simp
  | some j =>
    simp only
    cases hf : firstOperandError j.operands with
    | none => simp only [Except.ok.injEq, Option.some.injEq]; exact ⟨by rintro rfl; exact ⟨rfl, hf⟩, (·.1)⟩
    | some e => simp only [Option.some.injEq]; exact ⟨(nomatch ·), by rintro ⟨rfl, h⟩; simp [hf] at h⟩

theorem operandError_read (m : Mode) : operandError (.read, m) = none ↔ m.legalRead = true := by
  cases m <;> simp [operandError, Mode.legalRead]

theorem operandError_write (m : Mode) : operandError (.write, m) = none ↔ m.legalWrite = true := by
  cases m <;> simp [operandError, Mode.legalWrite]

theorem firstOperandError_cons (o : Role × Mode) (rest : List (Role × Mode)) :
    firstOperandError (o :: rest) = none ↔ operandError o = none ∧ firstOperandError rest = none := by
  rw [firstOperandError]
  cases operandError o <;> simp

/-- The decoder's operand checks are `wellFormed` (30_encoding.md R67). -/
theorem wellFormed_iff (i : Instr) : i.wellFormed = true ↔ firstOperandError i.operands = none := by
  have hnil : firstOperandError [] = none := rfl
  cases i <;> simp [Instr.operands, Instr.wellFormed, firstOperandError_cons, hnil, operandError_read,
    operandError_write, and_assoc]

@[simp] theorem Mode.digit_ofDigit (d : Nat) : (Mode.ofDigit d).digit = d := by
  unfold Mode.ofDigit; split <;> rfl

theorem Mode.ofDigit_digit_read {m : Mode} (h : m.legalRead = true) : m.digit ≤ 2 ∧ Mode.ofDigit m.digit = m := by
  cases m <;> simp [Mode.legalRead, Mode.digit, Mode.ofDigit] at *

theorem Mode.ofDigit_digit_write {m : Mode} (h : m.legalWrite = true) : m.digit ≤ 2 ∧ Mode.ofDigit m.digit = m := by
  cases m <;> simp [Mode.legalWrite, Mode.digit, Mode.ofDigit] at *

/-- Without wrapping, the canonical word is its formula (30_encoding.md R66). -/
theorem encode_toNat {i : Instr} (h : modeDigits i.operands ≤ 222) :
    (encode i).toNat = i.opcode + 100 * modeDigits i.operands := by
  have : i.opcode ≤ 99 := by cases i <;> simp [Instr.opcode]
  unfold encode
  rw [BitVec.toNat_ofNat, Nat.mod_eq_of_lt (by omega)]

/-- No opcode is selected exactly when the remainder is none of the ten (30_encoding.md R57). -/
theorem selectInstr_eq_none {iw : Word} :
    selectInstr iw = none ↔ ¬ (1 ≤ opcodeOf iw ∧ opcodeOf iw ≤ 9) ∧ opcodeOf iw ≠ 99 := by
  unfold selectInstr Instr.ofOpcode
  split_ifs <;> simp <;> omega

/-- A selected instruction has the word's opcode (30_encoding.md R56). -/
theorem opcodeOf_selectInstr {iw : Word} {i : Instr} (h : selectInstr iw = some i) : opcodeOf iw = i.opcode := by
  unfold selectInstr Instr.ofOpcode at h
  split_ifs at h <;> cases h <;> simp [Instr.opcode, *]

/-- A word that selects an instruction is not negative (30_encoding.md R53). -/
theorem nonneg_of_selectInstr {iw : Word} {i : Instr} (h : selectInstr iw = some i) : 0 ≤ iw.toInt := by
  have h1 := opcodeOf_selectInstr h
  have h2 : 0 < (i.opcode : Int) := by cases i <;> simp [Instr.opcode]
  unfold opcodeOf at h1
  by_contra hn
  rw [Int.tmod_eq_emod] at h1
  split at h1 <;> omega

end Sys2Proof
end

