-- ==== Sys2Proof/Laws/HostOps.lean ====
section
/-! SUPPORT. What `new` answers (70_reset_and_hazards.md R171), and what `run` does in one unfolding (46_host_operations.md R122). -/

namespace Sys2Proof.Machine

/-- `new` accepts a program no longer than `PROG_MAX`, and no other. -/
theorem newCore_eq_some {c : Config} {program : List Word} {s : State} :
    newCore c program = some s ↔ program.length ≤ c.progMax ∧ s = State.loaded c program := by
  unfold newCore
  split <;> simp [*, eq_comm]

/-- Only a running core has no result yet. -/
theorem stopResult_eq_none {s : State} : stopResult s = none ↔ s.state = .running := by
  unfold stopResult
  cases s.state <;> simp

/-- A stopped core returns at once, under every bound. -/
theorem runLoop_of_stopped {s : State} {r : RunResult} (h : stopResult s = some r) (c : Config) (n : Nat) :
    runLoop c n s = .returned r s := by
  unfold runLoop; simp only [h]

/-- A running core takes one step of the bound. -/
theorem runLoop_of_next {c : Config} {s t : State} (hr : s.state = .running) (h : stepUnder c s = .next t) (n : Nat) :
    runLoop c (n + 1) s = runLoop c n t := by
  rw [runLoop, stopResult_eq_none.mpr hr]; simp only [h]

/-- From a running core `run` is the loop. -/
theorem run_of_running {s : State} (hr : s.state = .running) (c : Config) (n : Nat) : run c n s = runLoop c n s := by
  unfold run; simp only [hr]

/-- From a stopped core `run` is the resume, or nothing, and then the loop. -/
theorem run_of_next {c : Config} {s t : State} (hr : s.state ≠ .running) (h : stepUnder c s = .next t) (n : Nat) :
    run c n s = runLoop c n t := by
  unfold run
  split
  · exact absurd ‹_› hr
  · simp only [h]

end Sys2Proof.Machine
end

