-- ==== Sys2Proof/Laws/Operands.lean ====
section
/-! SUPPORT. The operand resolver of the hardware is the exact-arithmetic description of Safety.lean (40_cycle_and_operands.md R73 to R83; 60_exceptions.md R148). -/

namespace Sys2Proof.Machine

/-- A small natural number as a word is that number. -/
theorem toInt_ofNat_small {k : Nat} (h : k < 2 ^ 63) : (BitVec.ofNat 64 k).toInt = (k : Int) := by
  rw [BitVec.toInt_eq_toNat_cond, BitVec.toNat_ofNat, Nat.mod_eq_of_lt (by omega), if_pos (by omega)]

/-- `rangeFault` of a representable sum. -/
theorem rangeFault_of_inI64 {x : Int} (h : InI64 x) : rangeFault x = none := if_pos h

theorem rangeFault_of_not_inI64 {x : Int} (h : ¬ InI64 x) : rangeFault x = some overflowRaise := if_neg h

theorem addressFault_of_nonneg {x : Int} (h : ¬ x < 0) : addressFault x = none := if_neg h

theorem addressFault_of_neg {x : Int} (h : x < 0) :
    addressFault x = some { cause := .addressError, info := Word.ofInt x } := if_pos h

/-- The decided policy's `narrow`, as the fault description says it. -/
theorem narrow_chip (x : Int) : narrow Config.chip.overflowPolicy x =
    match rangeFault x with
    | some r => .error r
    | none => .ok (Word.ofInt x) := by
  change narrow .fault x = _
  by_cases h : InI64 x
  · rw [narrow_of_inI64 _ h, rangeFault_of_inI64 h]
  · rw [narrow_fault_of_not_inI64 h, rangeFault_of_not_inI64 h]; rfl

/-- A non-negative program counter plus a small offset, in range, is the address of the cell so far on. -/
theorem pc_add_toNat {s : State} {k : Nat} (hpc : 0 ≤ s.pc.toInt) (h : InI64 (s.pc.toInt + k)) :
    (Word.ofInt (s.pc.toInt + k)).toNat = s.pc.toNat + k := by
  have h1 := toInt_ofInt h
  have h2 : 0 ≤ (Word.ofInt (s.pc.toInt + k)).toInt := by omega
  have h3 := toInt_eq_toNat h2
  have h4 := toInt_eq_toNat hpc
  omega

/-- The operand word of the hardware (40_cycle_and_operands.md R73). -/
theorem operandWord_chip {s : State} {k : Nat} (hpc : 0 ≤ s.pc.toInt) (hk : k < 2 ^ 63) :
    operandWord Config.chip s k =
      match rangeFault (s.pc.toInt + k) with
      | some r => .error r
      | none => .ok (operandCell s k) := by
  unfold operandWord add64
  rw [toInt_ofNat_small hk, narrow_chip]
  by_cases h : InI64 (s.pc.toInt + k)
  · rw [rangeFault_of_inI64 h]
    have h0 : 0 ≤ (Word.ofInt (s.pc.toInt + k)).toInt := by rw [toInt_ofInt h]; omega
    simp only [Check.ok_bind, Check.pure_eq, checkAddress_of_nonneg h0]
    rw [operandCell, memRead, pc_add_toNat hpc h]
  · rw [rangeFault_of_not_inI64 h]; rfl

/-- The successor address of the hardware (40_cycle_and_operands.md R79). -/
theorem successor_chip {s : State} {k : Nat} (hpc : 0 ≤ s.pc.toInt) (hk : k < 2 ^ 63) :
    successor Config.chip s k =
      match rangeFault (s.pc.toInt + k) with
      | some r => .error r
      | none => .ok (s.pc + BitVec.ofNat 64 k) := by
  unfold successor add64
  rw [toInt_ofNat_small hk, narrow_chip]
  by_cases h : InI64 (s.pc.toInt + k)
  · rw [rangeFault_of_inI64 h]
    have h0 : 0 ≤ (Word.ofInt (s.pc.toInt + k)).toInt := by rw [toInt_ofInt h]; omega
    simp only [Check.ok_bind, checkAddress_of_nonneg h0]
    congr 1
    rw [← toInt_ofNat_small hk, Word.ofInt, BitVec.ofInt_add, BitVec.ofInt_toInt, BitVec.ofInt_toInt]
  · rw [rangeFault_of_not_inI64 h]; rfl

/-- The effective address of relative mode on the hardware (40_cycle_and_operands.md R76). -/
theorem relativeAddress_chip (s : State) (w : Word) :
    relativeAddress Config.chip s w =
      match (rangeFault (s.rb.toInt + w.toInt)).or (addressFault (s.rb.toInt + w.toInt)) with
      | some r => .error r
      | none => .ok (Word.ofInt (s.rb.toInt + w.toInt)) := by
  unfold relativeAddress add64
  rw [narrow_chip]
  by_cases h : InI64 (s.rb.toInt + w.toInt)
  · rw [rangeFault_of_inI64 h]
    simp only [Check.ok_bind, Option.none_or]
    by_cases h0 : s.rb.toInt + w.toInt < 0
    · rw [addressFault_of_neg h0, checkAddress_of_neg (by rw [toInt_ofInt h]; exact h0)]
    · rw [addressFault_of_nonneg h0, checkAddress_of_nonneg (by rw [toInt_ofInt h]; omega)]
  · rw [rangeFault_of_not_inI64 h]; rfl

/-- A non-negative exact address as a word. -/
theorem toNat_ofInt {x : Int} (h : InI64 x) (h0 : ¬ x < 0) : (Word.ofInt x).toNat = x.toNat := by
  have h1 := toInt_ofInt h
  have h2 := toInt_eq_toNat (a := Word.ofInt x) (by omega)
  omega

/-- The position-mode check on an operand word. -/
theorem checkAddress_word (w : Word) :
    checkAddress w = match addressFault w.toInt with
      | some r => .error r
      | none => .ok w := by
  by_cases h : w.toInt < 0
  · rw [checkAddress_of_neg h, addressFault_of_neg h, ofInt_toInt]
  · rw [checkAddress_of_nonneg (by omega), addressFault_of_nonneg h]

/-- A read operand of the hardware: the fault of Safety.lean's description, or its value
(40_cycle_and_operands.md R75 to R77). -/
theorem readOperand_chip {s : State} {k : Nat} (hpc : 0 ≤ s.pc.toInt) (hk : k < 2 ^ 63) (m : Mode) :
    readOperand Config.chip s k m =
      match operandFault s k .read m with
      | some r => .error r
      | none => .ok (operandValue s k m) := by
  unfold readOperand
  cases m with
  | undefined d => rfl
  | immediate =>
    simp only [checkMode, Check.ok_bind, operandWord_chip hpc hk, operandFault]
    cases rangeFault (s.pc.toInt + k) <;> rfl
  | position =>
    simp only [checkMode, Check.ok_bind, operandWord_chip hpc hk, operandFault]
    cases rangeFault (s.pc.toInt + k) with
    | some r => rfl
    | none =>
      simp only [Check.ok_bind, Option.none_or, resolveRead, checkAddress_word]
      by_cases h : (operandCell s k).toInt < 0
      · simp [operandSum, addressFault_of_neg h]
      · simp only [operandSum, addressFault_of_nonneg h, Check.ok_bind, Check.pure_eq, operandValue, memRead]
        have := toInt_eq_toNat (a := operandCell s k) (by omega)
        rw [this, Int.toNat_natCast]
  | relative =>
    simp only [checkMode, Check.ok_bind, operandWord_chip hpc hk, operandFault]
    cases rangeFault (s.pc.toInt + k) with
    | some r => rfl
    | none =>
      simp only [Check.ok_bind, Option.none_or, resolveRead, relativeAddress_chip, operandSum]
      by_cases h : InI64 (s.rb.toInt + (operandCell s k).toInt)
      · by_cases h0 : s.rb.toInt + (operandCell s k).toInt < 0
        · simp [rangeFault_of_inI64 h, addressFault_of_neg h0]
        · simp [rangeFault_of_inI64 h, addressFault_of_nonneg h0, operandValue, operandSum, memRead, toNat_ofInt h h0]
      · simp [rangeFault_of_not_inI64 h]

/-- A write operand of the hardware: the fault of Safety.lean's description, or a non-negative word that is its address
(40_cycle_and_operands.md R78). -/
theorem writeTarget_chip {s : State} {k : Nat} (hpc : 0 ≤ s.pc.toInt) (hk : k < 2 ^ 63) (m : Mode) :
    match operandFault s k .write m with
    | some r => writeTarget Config.chip s k m = .error r
    | none => ∃ d : Word, writeTarget Config.chip s k m = .ok d ∧ 0 ≤ d.toInt ∧ d.toInt = operandSum s k m := by
  unfold writeTarget
  cases m with
  | undefined d => rfl
  | immediate =>
    simp only [checkMode, Check.ok_bind, operandWord_chip hpc hk, operandFault]
    cases rangeFault (s.pc.toInt + k) <;> rfl
  | position =>
    simp only [checkMode, Check.ok_bind, operandWord_chip hpc hk, operandFault]
    cases rangeFault (s.pc.toInt + k) with
    | some r => rfl
    | none =>
      simp only [Check.ok_bind, Option.none_or, resolveWrite, checkAddress_word, operandSum]
      by_cases h : (operandCell s k).toInt < 0
      · simp [addressFault_of_neg h]
      · simp only [addressFault_of_nonneg h]
        exact ⟨_, rfl, by omega, rfl⟩
  | relative =>
    simp only [checkMode, Check.ok_bind, operandWord_chip hpc hk, operandFault]
    cases rangeFault (s.pc.toInt + k) with
    | some r => rfl
    | none =>
      simp only [Check.ok_bind, Option.none_or, resolveWrite, relativeAddress_chip, operandSum]
      by_cases h : InI64 (s.rb.toInt + (operandCell s k).toInt)
      · by_cases h0 : s.rb.toInt + (operandCell s k).toInt < 0
        · simp [rangeFault_of_inI64 h, addressFault_of_neg h0]
        · simp only [rangeFault_of_inI64 h, addressFault_of_nonneg h0, Option.none_or]
          exact ⟨_, rfl, by rw [toInt_ofInt h]; omega, toInt_ofInt h⟩
      · simp [rangeFault_of_not_inI64 h]

/-- A write operand that answers an address answers one that is not negative, under every configuration
(20_memory.md R39). -/
theorem writeTarget_nonneg {c : Config} {s : State} {k : Nat} {m : Mode} {d : Word}
    (h : writeTarget c s k m = .ok d) : 0 ≤ d.toInt := by
  unfold writeTarget at h
  obtain ⟨m', -, h⟩ := Check.bind_eq_ok.mp h
  obtain ⟨w, -, h⟩ := Check.bind_eq_ok.mp h
  unfold resolveWrite at h
  cases m' with
  | position => obtain ⟨h1, rfl⟩ := checkAddress_eq_ok.mp h; exact h1
  | immediate => cases h
  | relative =>
    obtain ⟨x, -, h⟩ := Check.bind_eq_ok.mp h
    obtain ⟨h1, rfl⟩ := checkAddress_eq_ok.mp h; exact h1
  | undefined d => cases h

/-- A successor address is not negative, under every configuration (40_cycle_and_operands.md R79). -/
theorem successor_nonneg {c : Config} {s : State} {k : Nat} {t : Word} (h : successor c s k = .ok t) :
    0 ≤ t.toInt := by
  unfold successor at h
  obtain ⟨x, -, h⟩ := Check.bind_eq_ok.mp h
  obtain ⟨h1, rfl⟩ := checkAddress_eq_ok.mp h; exact h1

end Sys2Proof.Machine
end

