-- ==== Sys2Proof/Laws/Meanings.lean ====
section
/-! SUPPORT. Everything each shared operation of an instruction's meaning can do when it answers a next state, under every configuration. -/

namespace Sys2Proof.Machine

/-- `memWrite` stores the cell when the address is held (20_memory.md R33, R45). -/
theorem memWrite_of_lt {c : Config} {a : Word} (h : a.toNat < c.memMax) (s : State) (v : Word) :
    memWrite c s a v = .ok (s.storeCell c a.toNat v) := if_pos h

theorem memWrite_eq_ok {c : Config} {s t : State} {a v : Word} :
    memWrite c s a v = .ok t ↔ a.toNat < c.memMax ∧ t = s.storeCell c a.toNat v := by
  by_cases h : a.toNat < c.memMax
  · rw [memWrite_of_lt h, Except.ok.injEq]
    exact ⟨fun e => ⟨h, e.symm⟩, fun e => e.2.symm⟩
  · unfold memWrite
    rw [if_neg h]
    exact ⟨(nomatch ·), fun e => absurd e.1 h⟩

/-- On the hardware every write to an address succeeds (20_memory.md R33). -/
theorem memWrite_chip {a : Word} (h : 0 ≤ a.toInt) (s : State) (v : Word) :
    memWrite Config.chip s a v = .ok (s.storeCell Config.chip a.toNat v) :=
  memWrite_of_lt (toNat_lt_of_nonneg h) s v

/-- The last two writes of an instruction that stores. -/
theorem commitStore_eq_next {c : Config} {s t : State} {d v nxt : Word} (h : commitStore c s d v nxt = .next t) :
    d.toNat < c.memMax ∧ t = (s.storeCell c d.toNat v).setPc nxt := by
  unfold commitStore at h
  split at h
  · next s' hs =>
    obtain ⟨h1, rfl⟩ := memWrite_eq_ok.mp hs
    exact ⟨h1, by simpa using h.symm⟩
  · cases h

theorem commitStore_of_lt {c : Config} {d : Word} (h : d.toNat < c.memMax) (s : State) (v nxt : Word) :
    commitStore c s d v nxt = .next ((s.storeCell c d.toNat v).setPc nxt) := by
  unfold commitStore; rw [memWrite_of_lt h]

/-- ADD, MUL, LT, EQ: a fault, or one cell stored at the write operand's address and `pc` at the successor. -/
theorem computeAndStore_eq_next {c : Config} {op : Word → Word → Check Word} {a b dst : Mode} {s t : State}
    (h : computeAndStore c op a b dst s = .next t) :
    (∃ r, t = s.takeFault r) ∨
    ∃ v1 v2 d r nxt, readOperand c s 1 a = .ok v1 ∧ readOperand c s 2 b = .ok v2 ∧ writeTarget c s 3 dst = .ok d ∧
      op v1 v2 = .ok r ∧ successor c s 4 = .ok nxt ∧ d.toNat < c.memMax ∧
      t = (s.storeCell c d.toNat r).setPc nxt := by
  rcases settle_eq_next h with ⟨r, -, rfl⟩ | h
  · exact .inl ⟨r, rfl⟩
  · obtain ⟨v1, h1, h⟩ := Check.bind_eq_ok.mp h
    obtain ⟨v2, h2, h⟩ := Check.bind_eq_ok.mp h
    obtain ⟨d, h3, h⟩ := Check.bind_eq_ok.mp h
    obtain ⟨r, h4, h⟩ := Check.bind_eq_ok.mp h
    obtain ⟨nxt, h5, h⟩ := Check.bind_eq_ok.mp h
    rw [Check.pure_eq, Except.ok.injEq] at h
    obtain ⟨h6, h7⟩ := commitStore_eq_next h
    exact .inr ⟨v1, v2, d, r, nxt, h1, h2, h3, h4, h5, h6, h7⟩

/-- JT, JF: a fault, or `pc` at the target or the successor, which is not negative. -/
theorem jumpWhen_eq_next {c : Config} {taken : Word → Bool} {a target : Mode} {s t : State}
    (h : jumpWhen c taken a target s = .next t) :
    (∃ r, t = s.takeFault r) ∨
    ∃ v1 v2 nxt, readOperand c s 1 a = .ok v1 ∧ readOperand c s 2 target = .ok v2 ∧
      (if taken v1 = true then nxt = v2 else successor c s 3 = .ok nxt) ∧ 0 ≤ nxt.toInt ∧ t = s.setPc nxt := by
  rcases settle_eq_next h with ⟨r, -, rfl⟩ | h
  · exact .inl ⟨r, rfl⟩
  · obtain ⟨v1, h1, h⟩ := Check.bind_eq_ok.mp h
    obtain ⟨v2, h2, h⟩ := Check.bind_eq_ok.mp h
    obtain ⟨nxt, h3, h⟩ := Check.bind_eq_ok.mp h
    simp only [Check.pure_eq, Except.ok.injEq, Host.Outcome.next.injEq] at h
    have ht := h.symm
    refine .inr ⟨v1, v2, nxt, h1, h2, ?_⟩
    unfold jumpTarget at h3
    split at h3
    · next hc =>
      obtain ⟨h4, h5⟩ := checkAddress_eq_ok.mp h3
      exact ⟨by rw [if_pos hc]; exact h5, by rw [h5]; exact h4, ht⟩
    · next hc => exact ⟨by rw [if_neg hc]; exact h3, successor_nonneg h3, ht⟩

/-- IN: a fault, or the request recorded at a non-negative address. -/
theorem inpUnder_eq_next {c : Config} {dst : Mode} {s t : State} (h : inpUnder c dst s = .next t) :
    (∃ r, t = s.takeFault r) ∨ ∃ d, writeTarget c s 1 dst = .ok d ∧ 0 ≤ d.toInt ∧ t = s.requestInput d := by
  rcases settle_eq_next h with ⟨r, -, rfl⟩ | h
  · exact .inl ⟨r, rfl⟩
  · obtain ⟨d, h1, h⟩ := Check.bind_eq_ok.mp h
    simp only [Check.pure_eq, Except.ok.injEq, Host.Outcome.next.injEq] at h
    exact .inr ⟨d, h1, writeTarget_nonneg h1, h.symm⟩

/-- OUT: a fault, or the value surfaced and `pc` at the successor. -/
theorem outUnder_eq_next {c : Config} {a : Mode} {s t : State} (h : outUnder c a s = .next t) :
    (∃ r, t = s.takeFault r) ∨
    ∃ v nxt, readOperand c s 1 a = .ok v ∧ successor c s 2 = .ok nxt ∧ t = (s.surfaceOutput v).setPc nxt := by
  rcases settle_eq_next h with ⟨r, -, rfl⟩ | h
  · exact .inl ⟨r, rfl⟩
  · obtain ⟨v, h1, h⟩ := Check.bind_eq_ok.mp h
    obtain ⟨nxt, h2, h⟩ := Check.bind_eq_ok.mp h
    simp only [Check.pure_eq, Except.ok.injEq, Host.Outcome.next.injEq] at h
    exact .inr ⟨v, nxt, h1, h2, h.symm⟩

/-- ARB: a fault, or the new base and `pc` at the successor. -/
theorem arbUnder_eq_next {c : Config} {a : Mode} {s t : State} (h : arbUnder c a s = .next t) :
    (∃ r, t = s.takeFault r) ∨
    ∃ v base nxt, readOperand c s 1 a = .ok v ∧ add64 c.overflowPolicy s.rb v = .ok base ∧
      successor c s 2 = .ok nxt ∧ t = (s.setRb base).setPc nxt := by
  rcases settle_eq_next h with ⟨r, -, rfl⟩ | h
  · exact .inl ⟨r, rfl⟩
  · obtain ⟨v, h1, h⟩ := Check.bind_eq_ok.mp h
    obtain ⟨base, h2, h⟩ := Check.bind_eq_ok.mp h
    obtain ⟨nxt, h3, h⟩ := Check.bind_eq_ok.mp h
    simp only [Check.pure_eq, Except.ok.injEq, Host.Outcome.next.injEq] at h
    exact .inr ⟨v, base, nxt, h1, h2, h3, h.symm⟩

/-- HALT: the run state only. -/
theorem haltUnder_eq_next {c : Config} {s t : State} (h : haltUnder c s = .next t) : t = s.setRun .halted := by
  simpa [haltUnder] using h.symm

/-- The resume of an IN: a fault, or the deferred write, `pc` at the successor and the slot cleared. -/
theorem resumeInput_eq_next {c : Config} {s t : State} (h : resumeInput c s = .next t) :
    (∃ r, t = s.takeFault r) ∨
    ∃ nxt, successor c s 2 = .ok nxt ∧ s.pin.dst.toNat < c.memMax ∧
      t = (((s.storeCell c s.pin.dst.toNat s.pin.value).setPc nxt).clearInput).setRun .running := by
  rcases settle_eq_next h with ⟨r, -, rfl⟩ | h
  · exact .inl ⟨r, rfl⟩
  · obtain ⟨nxt, h1, h⟩ := Check.bind_eq_ok.mp h
    rw [Check.pure_eq, Except.ok.injEq] at h
    split at h
    · next s' hs =>
      obtain ⟨h2, rfl⟩ := memWrite_eq_ok.mp hs
      exact .inr ⟨nxt, h1, h2, by simpa using h.symm⟩
    · cases h

/-- What one step of a core does in each run state. -/
theorem advance_eq_next {c : Config} {run : Instr → State → Outcome} {s t : State} (h : advance c run s = .next t) :
    (s.state = .running ∧ executeNext run s = .next t) ∨
    (s.state = .suspendedForInput ∧ s.pin.ready = false ∧ t = s) ∨
    (s.state = .suspendedForInput ∧ s.pin.ready = true ∧ resumeInput c s = .next t) ∨
    (s.state = .suspendedForOutput ∧ t = s.clearOutput.setRun .running) ∨
    (s.state = .halted ∧ t = s) ∨ (s.state = .faulted ∧ t = s) := by
  unfold advance at h
  cases hs : s.state <;> rw [hs] at h
  · exact .inl ⟨rfl, h⟩
  · cases hr : s.pin.ready <;> simp only [hr] at h
    · exact .inr (.inl ⟨rfl, rfl, by simpa using h.symm⟩)
    · exact .inr (.inr (.inl ⟨rfl, rfl, h⟩))
  · exact .inr (.inr (.inr (.inl ⟨rfl, by simpa [resumeOutput] using h.symm⟩)))
  · exact .inr (.inr (.inr (.inr (.inl ⟨rfl, by simpa using h.symm⟩))))
  · exact .inr (.inr (.inr (.inr (.inr ⟨rfl, by simpa using h.symm⟩))))

/-- The executed part of a step: the fault of an undefined opcode, or the selected instruction. -/
theorem executeNext_eq_next {run : Instr → State → Outcome} {s t : State} (h : executeNext run s = .next t) :
    (selectInstr (memRead s s.pc) = none ∧ ∃ r, t = s.takeFault r) ∨
    ∃ i, selectInstr (memRead s s.pc) = some i ∧ run i s = .next t := by
  unfold executeNext at h
  split at h
  · next hn => exact .inl ⟨hn, _, by simpa using h.symm⟩
  · next i hi => exact .inr ⟨i, hi, h⟩

/-- Everything an instruction can do, by the shape of its effect: a fault, or the writes of its kind
(60_exceptions.md R150; 41_arithmetic.md R90; 43_jump.md R100; 44_io.md R105, R106; 45_relbase_halt.md R112, R113). -/
theorem execUnder_eq_next {c : Config} {i : Instr} {s t : State} (h : execUnder c i s = .next t) :
    (∃ r, t = s.takeFault r) ∨
    (i.opcode ∈ [1, 2, 7, 8] ∧ ∃ d v nxt : Word, 0 ≤ d.toInt ∧ successor c s 4 = .ok nxt ∧ d.toNat < c.memMax ∧
      t = (s.storeCell c d.toNat v).setPc nxt) ∨
    (i.opcode ∈ [5, 6] ∧ ∃ nxt : Word, 0 ≤ nxt.toInt ∧ t = s.setPc nxt) ∨
    (i.opcode = 3 ∧ ∃ d : Word, 0 ≤ d.toInt ∧ t = s.requestInput d) ∨
    (i.opcode = 4 ∧ ∃ v nxt : Word, successor c s 2 = .ok nxt ∧ t = (s.surfaceOutput v).setPc nxt) ∨
    (i.opcode = 9 ∧ ∃ base nxt : Word, successor c s 2 = .ok nxt ∧ t = (s.setRb base).setPc nxt) ∨
    (i.opcode = 99 ∧ t = s.setRun .halted) := by
  have store : ∀ {op a b dst}, i.opcode ∈ [1, 2, 7, 8] → computeAndStore c op a b dst s = .next t →
      (∃ r, t = s.takeFault r) ∨ (i.opcode ∈ [1, 2, 7, 8] ∧ ∃ d v nxt : Word, 0 ≤ d.toInt ∧
        successor c s 4 = .ok nxt ∧ d.toNat < c.memMax ∧ t = (s.storeCell c d.toNat v).setPc nxt) := by
    intro op a b dst ho h
    rcases computeAndStore_eq_next h with hr | ⟨-, -, d, r, nxt, -, -, h3, -, h5, h6, h7⟩
    · exact .inl hr
    · exact .inr ⟨ho, d, r, nxt, writeTarget_nonneg h3, h5, h6, h7⟩
  have jump : ∀ {taken a target}, i.opcode ∈ [5, 6] → jumpWhen c taken a target s = .next t →
      (∃ r, t = s.takeFault r) ∨ (i.opcode ∈ [5, 6] ∧ ∃ nxt : Word, 0 ≤ nxt.toInt ∧ t = s.setPc nxt) := by
    intro taken a target ho h
    rcases jumpWhen_eq_next h with hr | ⟨-, -, nxt, -, -, -, h4, h5⟩
    · exact .inl hr
    · exact .inr ⟨ho, nxt, h4, h5⟩
  cases i with
  | add a b dst => exact (store (by simp [Instr.opcode]) h).imp_right .inl
  | mul a b dst => exact (store (by simp [Instr.opcode]) h).imp_right .inl
  | lt a b dst => exact (store (by simp [Instr.opcode]) h).imp_right .inl
  | eq a b dst => exact (store (by simp [Instr.opcode]) h).imp_right .inl
  | jt a target => exact (jump (by simp [Instr.opcode]) h).imp_right (.inr ∘ .inl)
  | jf a target => exact (jump (by simp [Instr.opcode]) h).imp_right (.inr ∘ .inl)
  | inp dst =>
    rcases inpUnder_eq_next h with hr | ⟨d, -, h2, h3⟩
    · exact .inl hr
    · exact .inr (.inr (.inr (.inl ⟨rfl, d, h2, h3⟩)))
  | out a =>
    rcases outUnder_eq_next h with hr | ⟨v, nxt, -, h2, h3⟩
    · exact .inl hr
    · exact .inr (.inr (.inr (.inr (.inl ⟨rfl, v, nxt, h2, h3⟩))))
  | arb a =>
    rcases arbUnder_eq_next h with hr | ⟨-, base, nxt, -, -, h3, h4⟩
    · exact .inl hr
    · exact .inr (.inr (.inr (.inr (.inr (.inl ⟨rfl, base, nxt, h3, h4⟩)))))
  | halt => exact .inr (.inr (.inr (.inr (.inr (.inr ⟨rfl, haltUnder_eq_next (c := c) h⟩)))))

/-- The hardware's instructions are the configurable ones at the hardware's configuration. -/
theorem execUnder_chip (i : Instr) (s : State) : execUnder Config.chip i s = exec i s := by
  cases i <;> rfl

/-- The hardware's step is the configurable one at the hardware's configuration. -/
theorem stepUnder_chip (s : State) : stepUnder Config.chip s = step s := by
  have h : execUnder Config.chip = exec := by funext i s; exact execUnder_chip i s
  unfold stepUnder step
  rw [h]

end Sys2Proof.Machine
end

