-- ==== Sys2Proof/Laws/Memory.lean ====
section
/-! SUPPORT. Memory as data: what a write changes, and that every memory operation keeps the canonical form. -/

namespace Sys2Proof.Machine

@[simp] theorem Memory.read_nil (a : Nat) : Memory.read [] a = 0#64 := rfl

theorem Memory.read_cons (k : Nat) (w : Word) (rest : Memory) (a : Nat) :
    Memory.read ((k, w) :: rest) a = if k = a then w else Memory.read rest a := rfl

theorem Memory.wfFrom_cons (low k : Nat) (w : Word) (rest : Memory) :
    Memory.wfFrom low ((k, w) :: rest) = true ↔
      low ≤ k ∧ k < addrCount ∧ w ≠ 0#64 ∧ Memory.wfFrom (k + 1) rest = true := by
  simp [Memory.wfFrom, and_assoc]

/-- The canonical form from an address on is the canonical form from any lower one. -/
theorem Memory.wfFrom_mono {m : Memory} {low low' : Nat} (h : Memory.wfFrom low m = true) (hl : low' ≤ low) :
    Memory.wfFrom low' m = true := by
  cases m with
  | nil => rfl
  | cons p rest =>
    obtain ⟨k, w⟩ := p
    rw [Memory.wfFrom_cons] at h ⊢
    exact ⟨le_trans hl h.1, h.2⟩

/-- Below the lowest listed address every cell reads as 0. -/
theorem Memory.read_below_wfFrom {m : Memory} {low a : Nat} (h : Memory.wfFrom low m = true) (ha : a < low) :
    Memory.read m a = 0#64 := by
  induction m generalizing low with
  | nil => rfl
  | cons p rest ih =>
    obtain ⟨k, w⟩ := p
    rw [Memory.wfFrom_cons] at h
    obtain ⟨h1, -, -, h4⟩ := h
    rw [Memory.read_cons, if_neg (by omega), ih h4 (by omega)]

/-- A write leaves every other cell alone (20_memory.md R33). -/
theorem Memory.read_write_ne (m : Memory) {a b : Nat} (v : Word) (h : b ≠ a) :
    Memory.read (Memory.write m a v) b = Memory.read m b := by
  induction m with
  | nil => unfold Memory.write; split <;> simp [Memory.read_cons, Ne.symm h]
  | cons p rest ih =>
    obtain ⟨k, w⟩ := p
    unfold Memory.write
    split_ifs with h1 h2 h3 h4 <;> simp_all [Memory.read_cons, Ne.symm]

/-- In a canonical memory a read after a write to the same cell gives the value written (20_memory.md R33). -/
theorem Memory.read_write_same {m : Memory} {low : Nat} (hm : Memory.wfFrom low m = true) (a : Nat) (v : Word) :
    Memory.read (Memory.write m a v) a = v := by
  induction m generalizing low with
  | nil => unfold Memory.write; split <;> simp_all [Memory.read_cons]
  | cons p rest ih =>
    obtain ⟨k, w⟩ := p
    rw [Memory.wfFrom_cons] at hm
    obtain ⟨-, -, -, h4⟩ := hm
    unfold Memory.write
    split_ifs with h1 h2 h3 h4'
    · subst h2
      rw [Memory.read_cons, if_neg (by omega)]
      exact Memory.read_below_wfFrom h4 (by omega)
    · simp [Memory.read_cons]
    · subst h3; subst h4'
      exact Memory.read_below_wfFrom h4 (by omega)
    · simp [Memory.read_cons]
    · rw [Memory.read_cons, if_neg (by omega)]
      exact ih h4

/-- A write below 2^63 keeps the canonical form (log entry 1). -/
theorem Memory.wfFrom_write {m : Memory} {low a : Nat} (hm : Memory.wfFrom low m = true) (hlow : low ≤ a)
    (ha : a < addrCount) (v : Word) : Memory.wfFrom low (Memory.write m a v) = true := by
  induction m generalizing low with
  | nil =>
    unfold Memory.write
    split
    · rfl
    · rw [Memory.wfFrom_cons]; exact ⟨hlow, ha, ‹_›, rfl⟩
  | cons p rest ih =>
    obtain ⟨k, w⟩ := p
    have hm' := hm
    rw [Memory.wfFrom_cons] at hm
    obtain ⟨h1, h2, h3, h4⟩ := hm
    unfold Memory.write
    split_ifs with c1 c2 c3 c4
    · exact hm'
    · rw [Memory.wfFrom_cons, Memory.wfFrom_cons]
      exact ⟨hlow, ha, c2, by omega, h2, h3, h4⟩
    · exact Memory.wfFrom_mono h4 (by omega)
    · rw [Memory.wfFrom_cons]
      exact ⟨hlow, ha, c4, by subst c3; exact h4⟩
    · rw [Memory.wfFrom_cons]
      exact ⟨h1, h2, h3, ih h4 (by omega)⟩

/-- A write below 2^63 keeps the canonical form (log entry 1). -/
theorem Memory.wf_write {m : Memory} {a : Nat} (hm : Memory.wf m = true) (ha : a < addrCount) (v : Word) :
    Memory.wf (Memory.write m a v) = true :=
  Memory.wfFrom_write hm (Nat.zero_le a) ha v

/-- Loading a list of cells keeps the canonical form. -/
theorem Memory.wf_load {m : Memory} {a : Nat} {l : List Word} (hm : Memory.wf m = true)
    (ha : a + l.length ≤ addrCount) : Memory.wf (Memory.load m a l) = true := by
  induction l generalizing m a with
  | nil => exact hm
  | cons v rest ih =>
    simp only [List.length_cons] at ha
    exact ih (Memory.wf_write hm (by omega) v) (by omega)

/-- The extent that covers a memory may grow. -/
theorem Memory.below_mono {m : Memory} {e e' : Nat} (h : Memory.below m e = true) (he : e ≤ e') :
    Memory.below m e' = true := by
  induction m with
  | nil => rfl
  | cons p rest ih =>
    obtain ⟨k, w⟩ := p
    simp only [Memory.below, Bool.and_eq_true, decide_eq_true_eq] at h ⊢
    exact ⟨by omega, ih h.2⟩

/-- A write below an extent leaves the memory below it. -/
theorem Memory.below_write {m : Memory} {e a : Nat} (h : Memory.below m e = true) (ha : a < e) (v : Word) :
    Memory.below (Memory.write m a v) e = true := by
  induction m with
  | nil => unfold Memory.write; split <;> simp [Memory.below, ha]
  | cons p rest ih =>
    obtain ⟨k, w⟩ := p
    simp only [Memory.below, Bool.and_eq_true, decide_eq_true_eq] at h
    unfold Memory.write
    split_ifs <;> simp_all [Memory.below]

/-- The extent after a write covers the memory after it (20_memory.md R34, 10_state.md R24 I6). -/
theorem Memory.below_write_grown {c : Config} (hc : c.Conforms) {m : Memory} {e : Nat} (h : Memory.below m e = true)
    (a : Nat) (v : Word) : Memory.below (Memory.write m a v) (grownExtent c e a) = true := by
  unfold grownExtent
  split
  · next hle =>
    have := hc.1 e a hle
    exact Memory.below_write (Memory.below_mono h (by omega)) this v
  · next hlt => exact Memory.below_write h (by omega) v

/-- A loaded list is read back from its first address on, and every other cell is as before. -/
theorem Memory.read_load {m : Memory} {a : Nat} {l : List Word} (hm : Memory.wf m = true)
    (ha : a + l.length ≤ addrCount) (k : Nat) : Memory.read (Memory.load m a l) k =
      if a ≤ k ∧ k < a + l.length then l.getD (k - a) 0#64 else Memory.read m k := by
  induction l generalizing m a with
  | nil => rw [if_neg (by simp)]; rfl
  | cons v rest ih =>
    simp only [List.length_cons] at ha ⊢
    unfold Memory.load
    rw [ih (Memory.wf_write hm (by omega) v) (by omega)]
    by_cases hk : k = a
    · subst hk
      rw [if_neg (by omega), if_pos (by omega), Memory.read_write_same hm]
      simp
    · rw [Memory.read_write_ne _ _ hk]
      by_cases h : a + 1 ≤ k ∧ k < a + 1 + rest.length
      · rw [if_pos h, if_pos (by omega), show k - a = (k - (a + 1)) + 1 by omega, List.getD_cons_succ]
      · rw [if_neg h, if_neg (by omega)]

/-- Loading a list below an extent leaves the memory below it. -/
theorem Memory.below_load {m : Memory} {a e : Nat} {l : List Word} (hm : Memory.below m e = true)
    (ha : a + l.length ≤ e) : Memory.below (Memory.load m a l) e = true := by
  induction l generalizing m a with
  | nil => exact hm
  | cons v rest ih =>
    simp only [List.length_cons] at ha
    exact ih (Memory.below_write hm (by omega) v) (by omega)

/-- The hardware's own configuration conforms (20_memory.md R34, R45; log entries 17 and 18). -/
theorem Config.chip_conforms : Config.chip.Conforms :=
  ⟨fun _ a _ => Nat.lt_succ_self a, Nat.le_refl _, Nat.le_refl _, Nat.succ_pos _⟩

end Sys2Proof.Machine
end

