-- ==== Sys2Proof/Laws/PerInstr.lean ====
section
/-! SUPPORT. A statement for all instructions, made per instruction: the canonical word has the instruction's opcode in its low two digits and no digit beyond its operands' (30_encoding.md R51, R66). -/

namespace Sys2Proof.Laws.CanonicalWord

/-- The canonical word of a legal instruction ends in its opcode and has two digits and one per operand. -/
def Statement (i : Instr) : Prop :=
  i.wellFormed = true → (encode i).toNat % 100 = i.opcode ∧ (encode i).toNat < 10 ^ (2 + i.operands.length)

theorem of_F3RRW {i : Instr} {a b dst : Mode} (hi : i.operands = [(.read, a), (.read, b), (.write, dst)]) :
    Statement i := by
  intro h
  have ho : i.opcode ≤ 99 := by cases i <;> simp [Instr.opcode]
  rw [wellFormed_iff, hi] at h
  simp only [firstOperandError_cons, operandError_read, operandError_write] at h
  have h1 := (Mode.ofDigit_digit_read h.1).1
  have h2 := (Mode.ofDigit_digit_read h.2.1).1
  have h3 := (Mode.ofDigit_digit_write h.2.2.1).1
  have hd : modeDigits i.operands ≤ 222 := by rw [hi]; simp only [modeDigits]; omega
  rw [encode_toNat hd]
  rw [hi] at hd ⊢
  simp only [List.length_cons, List.length_nil]
  omega

theorem of_F2RR {i : Instr} {a target : Mode} (hi : i.operands = [(.read, a), (.read, target)]) : Statement i := by
  intro h
  have ho : i.opcode ≤ 99 := by cases i <;> simp [Instr.opcode]
  rw [wellFormed_iff, hi] at h
  simp only [firstOperandError_cons, operandError_read] at h
  have h1 := (Mode.ofDigit_digit_read h.1).1
  have h2 := (Mode.ofDigit_digit_read h.2.1).1
  have hd : modeDigits i.operands ≤ 22 := by rw [hi]; simp only [modeDigits]; omega
  rw [encode_toNat (by omega)]
  rw [hi] at hd ⊢
  simp only [List.length_cons, List.length_nil]
  omega

theorem of_F1 {i : Instr} {role : Role} {m : Mode} (hi : i.operands = [(role, m)]) : Statement i := by
  intro h
  have ho : i.opcode ≤ 99 := by cases i <;> simp [Instr.opcode]
  rw [wellFormed_iff, hi, firstOperandError_cons] at h
  have h1 : m.digit ≤ 2 := by
    cases role with
    | read => exact (Mode.ofDigit_digit_read ((operandError_read m).mp h.1)).1
    | write => exact (Mode.ofDigit_digit_write ((operandError_write m).mp h.1)).1
  have hd : modeDigits i.operands ≤ 2 := by rw [hi]; simp only [modeDigits]; omega
  rw [encode_toNat (by omega)]
  rw [hi] at hd ⊢
  simp only [List.length_cons, List.length_nil]
  omega

theorem add (a b dst : Mode) : Statement (.add a b dst) := of_F3RRW rfl
theorem mul (a b dst : Mode) : Statement (.mul a b dst) := of_F3RRW rfl
theorem inp (dst : Mode) : Statement (.inp dst) := of_F1 rfl
theorem out (a : Mode) : Statement (.out a) := of_F1 rfl
theorem jt (a target : Mode) : Statement (.jt a target) := of_F2RR rfl
theorem jf (a target : Mode) : Statement (.jf a target) := of_F2RR rfl
theorem lt (a b dst : Mode) : Statement (.lt a b dst) := of_F3RRW rfl
theorem eq (a b dst : Mode) : Statement (.eq a b dst) := of_F3RRW rfl
theorem arb (a : Mode) : Statement (.arb a) := of_F1 rfl
theorem halt : Statement .halt := fun _ => by decide

end Sys2Proof.Laws.CanonicalWord
end

