-- ==== Sys2Proof/Tests/Slice0.lean ====
section
/-! SUPPORT. The model's own tests, with values from the tables of spec/95_test_vectors.md or worked by hand from a rule, and for every obligation with hypotheses a state and operands that meet them. -/

namespace Sys2Proof.Tests

open Sys2Proof.Machine

/-! ## Helpers -/

/-- The words of a list of integers. -/
def words (l : List Int) : List Word := l.map Word.ofInt

/-- The core right after `new` of a program, initial extent twice its length (95_test_vectors.md, conventions). -/
def core (program : List Int) : State := State.loaded Config.reference (words program)

/-- The next state of an outcome. -/
def next? : Outcome → Option State
  | .next s => some s
  | _ => none

/-- What a step leaves in `pc`, the run state and one cell. -/
def pcStateCell (o : Outcome) (a : Nat) : Option (Int × RunState × Int) :=
  (next? o).map fun s => (s.pc.toInt, s.state, (Memory.read s.mem a).toInt)

/-- The fault record's cause, info, pc and iw after a step, and the pc. -/
def faultOf (o : Outcome) : Option (Cause × Int × Int × Int × Int) :=
  (next? o).bind fun s =>
    if s.state = .faulted then
      some (s.fault.cause, s.fault.info.toInt, s.fault.pc.toInt, s.fault.iw.toInt, s.pc.toInt)
    else none

/-- A running core with one instruction's cells at an address and a relative base. -/
def coreAt (pc rb : Int) (cells : List Int) : State :=
  { State.reset with
    pc := Word.ofInt pc, rb := Word.ofInt rb, mem := Memory.load [] pc.toNat (words cells), msize := addrCount }

/-- A core stopped in a run state, its slots and record as the invariants want them. -/
def stopped (r : RunState) : State :=
  { core [3, 0, 4, 0, 99] with
    state := r
    pin := { valid := decide (r = .suspendedForInput), dst := 0#64, ready := false, value := 0#64 }
    pout := { valid := decide (r = .suspendedForOutput), value := 7#64 }
    fault := { State.reset.fault with valid := decide (r = .faulted) } }

/-! ## Well-formedness: one ill-formed term for each check (30_encoding.md R58, R59) -/

theorem test_wellFormed_undefined_first : (Instr.add (.undefined 3) .position .position).wellFormed = false := by decide
theorem test_wellFormed_undefined_second : (Instr.mul .position (.undefined 9) .position).wellFormed = false := by decide
theorem test_wellFormed_undefined_third : (Instr.lt .position .position (.undefined 4)).wellFormed = false := by decide
theorem test_wellFormed_immediate_target : (Instr.eq .position .position .immediate).wellFormed = false := by decide
theorem test_wellFormed_add_immediate_target : (Instr.add .position .position .immediate).wellFormed = false := by decide
theorem test_wellFormed_mul_immediate_target : (Instr.mul .relative .position .immediate).wellFormed = false := by decide
theorem test_wellFormed_lt_immediate_target : (Instr.lt .relative .position .immediate).wellFormed = false := by decide
theorem test_wellFormed_inp_immediate : (Instr.inp .immediate).wellFormed = false := by decide
theorem test_wellFormed_inp_undefined : (Instr.inp (.undefined 5)).wellFormed = false := by decide
theorem test_wellFormed_out_undefined : (Instr.out (.undefined 3)).wellFormed = false := by decide
theorem test_wellFormed_jt_undefined : (Instr.jt .position (.undefined 7)).wellFormed = false := by decide
theorem test_wellFormed_jf_undefined : (Instr.jf (.undefined 8) .position).wellFormed = false := by decide
theorem test_wellFormed_arb_undefined : (Instr.arb (.undefined 6)).wellFormed = false := by decide
theorem test_wellFormed_jump_immediates : (Instr.jt .immediate .immediate).wellFormed = true := by decide

/-! ## Decoding: words written out digit by digit, C B A op (30_encoding.md R51, R54, R56) -/

theorem test_decode_add : decode 20101#64 = .ok (.add .immediate .position .relative) := by decide
theorem test_decode_mul : decode 1202#64 = .ok (.mul .relative .immediate .position) := by decide
theorem test_decode_inp : decode 203#64 = .ok (.inp .relative) := by decide
theorem test_decode_out : decode 104#64 = .ok (.out .immediate) := by decide
theorem test_decode_jt : decode 2105#64 = .ok (.jt .immediate .relative) := by decide
theorem test_decode_jf : decode 1206#64 = .ok (.jf .relative .immediate) := by decide
theorem test_decode_lt : decode 22107#64 = .ok (.lt .immediate .relative .relative) := by decide
theorem test_decode_eq : decode 1008#64 = .ok (.eq .position .immediate .position) := by decide
theorem test_decode_arb : decode 209#64 = .ok (.arb .relative) := by decide
theorem test_decode_halt : decode 99#64 = .ok .halt := by decide

/-- 30_encoding.md R60's own examples of digits that are not read. -/
theorem test_decode_unread : decode 1199#64 = .ok .halt ∧ decode 20099#64 = .ok .halt ∧
    decode 1003#64 = .ok (.inp .position) ∧ decode 100001#64 = .ok (.add .position .position .position) := by decide

/-- The largest word whose opcode is 99 (95_test_vectors.md H6). -/
theorem test_decode_largest_halt : decode 9223372036854775799#64 = .ok .halt := by decide

/-- 30_encoding.md R59's own examples. -/
theorem test_decode_immediate_target : decode 10001#64 = .error .invalidWriteTarget ∧
    decode 11101#64 = .error .invalidWriteTarget ∧ decode 103#64 = .error .invalidWriteTarget := by decide

/-- 60_exceptions.md R148's examples, as far as the decoder sees them: the first operand's digit comes first. -/
theorem test_decode_first_error : decode 10301#64 = .error (.invalidMode 3) ∧
    decode 30001#64 = .error (.invalidMode 3) := by decide

/-- 30_encoding.md R53, R57: opcodes 0 and 10, and -1, which is not opcode 99. -/
theorem test_decode_invalid_opcode : decode 0#64 = .error (.invalidOpcode 0) ∧
    decode 10#64 = .error (.invalidOpcode 10) ∧ decode (Word.ofInt (-1)) = .error (.invalidOpcode (-1)) ∧
    decode (Word.ofInt (-199)) = .error (.invalidOpcode (-99)) := by decide

/-- 30_encoding.md R63's example: `MUL #34915192, #34915192, [7]`. -/
theorem test_encode_line : encodeCells (.mul .immediate .immediate .position) (words [34915192, 34915192, 7]) =
    words [1102, 34915192, 34915192, 7] := by decide

/-- A table word's operand cells stand above its first 64 bits. -/
theorem test_decodeTableWord : decodeTableWord 64 1101 = some (.add .immediate .immediate .position) ∧
    decodeTableWord 128 (109 + 2 ^ 64 * 7) = some (.arb .immediate) ∧ decodeTableWord 64 98 = none := by decide

/-- The placed instruction runs as the first one after reset: `ARB #7` adds 7 (45_relbase_halt.md R112). -/
theorem test_withFetchWord : (next? (step (State.reset.withFetchWord 128 (109 + 2 ^ 64 * 7)))).map (·.rb) = some 7#64 := by
  decide

/-! ## One step of each instruction (95_test_vectors.md, part 2; the row's name stands in the comment) -/

/-- A3. -/
theorem test_add_negative : pcStateCell (step (core [1101, -5, 5, 0, 99])) 0 = some (4, .running, 0) := by decide
/-- A8. -/
theorem test_add_overflow : faultOf (step (core [1101, 9223372036854775807, 1, 0, 99])) =
    some (.arithmeticOverflow, 0, 0, 1101, 0) := by decide
/-- M6. -/
theorem test_mul_largest_square : pcStateCell (step (core [1102, 3037000499, 3037000499, 0, 99])) 0 =
    some (4, .running, 9223372030926249001) := by decide
/-- M5. -/
theorem test_mul_overflow : faultOf (step (core [1102, -1, -9223372036854775808, 0, 99])) =
    some (.arithmeticOverflow, 0, 0, 1102, 0) := by decide
/-- L2. -/
theorem test_lt_order : pcStateCell (step (core [1107, 8, 3, 5, 99, -1])) 5 = some (4, .running, 0) := by decide
/-- L5. -/
theorem test_lt_signed : pcStateCell (step (core [7, 5, 6, 0, 99, -9223372036854775808, 9223372036854775807])) 0 =
    some (4, .running, 1) := by decide
/-- E3. -/
theorem test_eq_unwritten : pcStateCell (step (core [8, 100, 200, 5, 99, -1])) 5 = some (4, .running, 1) := by decide
/-- E5. -/
theorem test_eq_differs : pcStateCell (step (core [108, 8, 0, 0, 99])) 0 = some (4, .running, 0) := by decide
/-- J5. -/
theorem test_jt_position : pcStateCell (step (core [5, 7, 8, 99, 104, 1, 99, -3, 4])) 0 = some (4, .running, 5) := by decide
/-- J9. -/
theorem test_jt_resolves_target : faultOf (step (core [105, 0, -1, 99])) = some (.addressError, -1, 0, 105, 0) := by decide
/-- J12. -/
theorem test_jf_unwritten : pcStateCell (step (core [6, 100, 5, 99, 99, 3])) 0 = some (3, .running, 6) := by decide
/-- J14. -/
theorem test_jf_negative_target : faultOf (step (core [1106, 0, -2, 99])) = some (.addressError, -2, 0, 1106, 0) := by decide
/-- I2, with the base of its first instruction already 7: the destination is `rb + 0`. -/
theorem test_inp_relative : (next? (step { core [203, 0, 4, 7, 99] with rb := 7#64 })).map (fun s => (s.pin, s.pc, s.state)) =
    some ({ valid := true, dst := 7#64, ready := false, value := 0#64 }, 0#64, .suspendedForInput) := by decide
/-- I4. -/
theorem test_inp_negative : faultOf (step (core [3, -1, 99])) = some (.addressError, -1, 0, 3, 0) := by decide
/-- O2. -/
theorem test_out_immediate : (next? (step (core [104, -7, 99]))).map (fun s => (s.pout, s.pc, s.state)) =
    some ({ valid := true, value := Word.ofInt (-7) }, 2#64, .suspendedForOutput) := by decide
/-- O6. -/
theorem test_out_undefined_mode : faultOf (step (core [304, 0, 99])) = some (.invalidMode, 3, 0, 304, 0) := by decide
/-- 45_relbase_halt.md R112: `209,k` is resolved with the old base, `rb <- rb + mem[rb + k]`; here 2 + mem[0]. -/
theorem test_arb_old_base : (next? (step { core [209, -2, 99] with rb := 2#64 })).map (fun s => (s.rb, s.pc)) =
    some (211#64, 2#64) := by decide
/-- 45_relbase_halt.md R112: a base that leaves the number format. -/
theorem test_arb_overflow : faultOf (step { core [109, 1, 99] with rb := Word.ofInt i64Max }) =
    some (.arithmeticOverflow, 0, 0, 109, 0) := by decide
/-- H1. -/
theorem test_halt : next? (step (core [99])) = some { core [99] with state := .halted } := by decide

/-! ## Operands, faults and their order -/

/-- 60_exceptions.md R148's first two examples. -/
theorem test_fault_order_operands : faultOf (step (core [10301, 0, 0, 0])) = some (.invalidMode, 3, 0, 10301, 0) ∧
    faultOf (step (core [10001, -1, 0, 0])) = some (.addressError, -1, 0, 10001, 0) := by decide

/-- 60_exceptions.md R148's last two examples. -/
theorem test_fault_order_target : faultOf (step (core [10001, 0, 0, 0])) = some (.invalidWriteTarget, 0, 0, 10001, 0) ∧
    faultOf (step (core [30001, 0, 0, 0])) = some (.invalidMode, 3, 0, 30001, 0) := by decide

/-- 40_cycle_and_operands.md R85's state: `rb = 7`, cell 3 holds 50, cell 10 holds 60. -/
def r85 : State := { State.reset with rb := 7#64, mem := [(3, 50#64), (10, 60#64)], msize := 11 }

/-- 40_cycle_and_operands.md R85, the read operands. -/
theorem test_resolve_read : resolveRead Config.chip r85 .position 3#64 = .ok 50#64 ∧
    resolveRead Config.chip r85 .immediate 3#64 = .ok 3#64 ∧ resolveRead Config.chip r85 .relative 3#64 = .ok 60#64 ∧
    resolveRead Config.chip r85 .relative (Word.ofInt (-7)) = .ok 0#64 ∧
    resolveRead Config.chip r85 .relative 9000000000000000000#64 = .ok 0#64 := by
  refine ⟨?_, ?_, ?_, ?_, ?_⟩ <;> rfl

/-- 40_cycle_and_operands.md R85, the faults. -/
theorem test_resolve_fault :
    resolveRead Config.chip r85 .position (Word.ofInt (-7)) = .error ⟨.addressError, Word.ofInt (-7)⟩ ∧
    resolveRead Config.chip r85 .relative (Word.ofInt (-8)) = .error ⟨.addressError, Word.ofInt (-1)⟩ ∧
    resolveWrite Config.chip r85 .immediate 3#64 = .error ⟨.invalidWriteTarget, 0#64⟩ := by
  refine ⟨?_, ?_, ?_⟩ <;> rfl

/-- 41_arithmetic.md, the table of corner results: `add64(I64_MIN, I64_MIN)`. -/
theorem test_add64_policies : (add64 .wrap (Word.ofInt i64Min) (Word.ofInt i64Min)).toOption = some 0#64 ∧
    (add64 .saturate (Word.ofInt i64Min) (Word.ofInt i64Min)).toOption = some (Word.ofInt i64Min) ∧
    (add64 .fault (Word.ofInt i64Min) (Word.ofInt i64Min)).toOption = none := by decide

/-- 10_state.md R16 and 60_exceptions.md R141: the codes. -/
theorem test_codes : RunState.code .suspendedForOutput = 2 ∧ RunState.code .faulted = 4 ∧
    Cause.code .addressError = 3 ∧ Cause.code .arithmeticOverflow = 5 := by decide

/-- A write keeps the canonical form: a 0 is not listed (20_memory.md R31). -/
theorem test_write_zero : Memory.write [(3, 5#64), (9, 1#64)] 3 0#64 = [(9, 1#64)] ∧
    Memory.write [(3, 5#64)] 1 2#64 = [(1, 2#64), (3, 5#64)] := by decide

/-- 46_host_operations.md R134's trace, rows 1 to 4: a supply before the request does nothing, a second value is
dropped. -/
theorem test_supply : supply (core [3, 0, 4, 0, 99]) 9#64 = core [3, 0, 4, 0, 99] ∧
    (supply (supply (stopped .suspendedForInput) 5#64) 6#64).pin.value = 5#64 := by decide

/-- 95_test_vectors.md S1: the dump of the loaded program is twice as long as the program. -/
theorem test_debugDump : debugDump (core [1, 0, 0, 0, 99]) = words [1, 0, 0, 0, 99, 0, 0, 0, 0, 0] := by decide

/-! ## Witnesses: for each obligation with hypotheses, values that meet them all -/

theorem witness_EncodeAndDecodeAgree : (Instr.add .relative .immediate .relative).wellFormed = true ∧
    decode 100001#64 = .ok (.add .position .position .position) ∧ decode 22201#64 = .ok (.add .relative .relative .relative) := by
  decide

/-- At the bound: 9223372036854775799 is the canonical 99 with the largest number above it. -/
theorem witness_UnreadDigitsAreIgnored : Instr.wellFormed .halt = true ∧
    (encode .halt).toNat + 10 ^ (2 + Instr.halt.operands.length) * 92233720368547757 < 2 ^ 63 := by decide

theorem witness_OpcodeIsTheTruncatedRemainder : 0 ≤ (0#64 : Word).toInt ∧ 0 ≤ (Word.ofInt i64Max).toInt ∧
    (Word.ofInt (-1)).toInt < 0 ∧ (Word.ofInt i64Min).toInt < 0 := by decide

theorem witness_UndefinedOpcodesAreRefused : decode 98#64 = .error (.invalidOpcode 98) := by decide

/-- A word that decodes, and one that only selects an instruction. -/
theorem witness_DecodedFieldsAreTheWords : decode 21107#64 = .ok (.lt .immediate .immediate .relative) ∧
    (Instr.lt .immediate .immediate .relative).operands[2]? = some (.write, .relative) ∧
    selectInstr 10901#64 = some (.add (.undefined 9) .position .immediate) := by decide

/-- Digits 3 and 9, on a first and on a later operand, and an immediate target; with both wrong the first is reported. -/
theorem witness_ModeErrorsAreTheNamedOnes : decode 30001#64 = .error (.invalidMode 3) ∧
    decode 909#64 = .error (.invalidMode 9) ∧ decode 103#64 = .error .invalidWriteTarget ∧
    decode 13001#64 = .error (.invalidMode 3) := by decide

/-- `13001`: operand 2 (counted 1 from 0) has the digit 3, and operand 1 before it has 0. -/
theorem witness_FirstWrongOperand : FirstWrongOperand 13001#64 1 .read := by
  refine ⟨by decide, [.read, .read, .write], by decide, by decide, by decide, ?_⟩
  intro j earlier hj h
  obtain rfl : j = 0 := by omega
  obtain rfl : Role.read = earlier := by simpa using h
  decide

/-- The examples' configuration with programs of at most two cells. -/
def twoCells : Config := { Config.reference with progMax := 2 }

/-- The empty program and one of two cells are accepted, the bound itself; one of three is refused. -/
theorem witness_NewLoadsTheProgram :
    ((words []).length ≤ twoCells.progMax ∧ (words []).length ≤ addrCount) ∧
    ((words [1, 0]).length ≤ twoCells.progMax ∧ (words [1, 0]).length ≤ addrCount) ∧
    twoCells.progMax < (words [1, 0, 0]).length := by decide

/-- The two choices of the model meet the hypotheses too: a program longer than `MEM_MAX` (log entry 17), and one that
memory holds but twice its length exceeds `MEM_MAX` (log entry 14). -/
theorem witness_NewLoadsTheProgram_choices :
    (∃ c : Config, c.memMax < (words [1, 0]).length ∧ (words [1, 0]).length ≤ c.progMax ∧
      (words [1, 0]).length ≤ addrCount) ∧
    ∃ c : Config, c.Conforms ∧ c.memMax < c.memInitFactor * (words [1, 0]).length ∧ (words [1, 0]).length ≤ c.progMax ∧
      (words [1, 0]).length ≤ addrCount :=
  ⟨⟨{ twoCells with memMax := 1 }, by decide⟩, { twoCells with memMax := 2 },
    ⟨fun _ a _ => Nat.lt_succ_self a, by decide⟩, by decide⟩

theorem witness_NewMeetsTheInvariants : 1 ≤ Config.reference.memInitFactor ∧ (words [1, 0, 0, 0, 99]).length ≤ addrCount ∧
    newCore Config.reference (words [1, 0, 0, 0, 99]) = some (core [1, 0, 0, 0, 99]) ∧
    ∃ s, newCore Config.chip (words [1, 0, 0, 0, 99]) = some s :=
  ⟨by decide, by decide, newCore_eq_some.mpr ⟨by decide, rfl⟩, _, newCore_eq_some.mpr ⟨by decide, rfl⟩⟩

theorem witness_StepKeepsTheInvariants : (core [1, 0, 0, 0, 99]).Inv ∧
    ∃ t, step (core [1, 0, 0, 0, 99]) = .next t := ⟨by decide, _, rfl⟩

/-- A core that runs, and the first `new`. -/
theorem witness_HostOperationsKeepTheInvariants : (core [99]).Inv ∧
    (∃ r t, serve Config.chip 1 .run (some (core [99])) = .reply r (some t)) ∧
    ∃ r t, serve Config.chip 1 (.new []) none = .reply r (some t) := by
  refine ⟨by decide, ⟨_, _, rfl⟩, .created, State.loaded Config.chip [], ?_⟩
  have h : newCore Config.chip [] = some (State.loaded Config.chip []) := newCore_eq_some.mpr ⟨Nat.zero_le _, rfl⟩
  simp only [serve, serveNew, h]

theorem witness_StepAlwaysAnswersANextState : (stopped .suspendedForInput).Inv := by decide

/-- A cell that decodes, and one with a defined opcode and two wrong digits. -/
theorem witness_StepRunsTheDecodedInstruction : (core [99]).state = .running ∧
    decode (memRead (core [99]) (core [99]).pc) = .ok .halt ∧
    selectInstr (memRead (core [10301, 0, 0, 0]) (core [10301, 0, 0, 0]).pc) =
      some (.add (.undefined 3) .position .immediate) := by decide

/-- One core for each clause: a cell 0, a cell 10 and a cell 98; then -99 and -100, whose remainder is 0. -/
theorem witness_StepTakesInvalidOpcode : (∀ w ∈ [(0 : Int), 10, 98, -99, -100],
      (core [w]).state = .running ∧ (memRead (core [w]) (core [w]).pc).toInt = w) ∧
    (∀ w ∈ [(0 : Int), 10, 98, -99, -100], ¬ (1 ≤ w.tmod 100 ∧ w.tmod 100 ≤ 9) ∧ w.tmod 100 ≠ 99) := by decide

/-- An undefined opcode; and R148's `10001,-1,0,0`, where the decoder says `InvalidWriteTarget` and the first fault is an
earlier operand's address. -/
theorem witness_StepFaultsOnIllegalWords : (∀ l ∈ [[(0 : Int)], [10001, -1, 0, 0]],
      (core l).state = .running ∧ 0 ≤ (core l).pc.toInt) ∧
    decode (memRead (core [0]) (core [0]).pc) = .error (.invalidOpcode 0) ∧
    decode (memRead (core [10001, -1, 0, 0]) (core [10001, -1, 0, 0]).pc) = .error .invalidWriteTarget ∧
    instrFault (core [10001, -1, 0, 0]) (.add .position .position .immediate) = some ⟨.addressError, Word.ofInt (-1)⟩ := by
  decide

theorem witness_StoppedCoresStayAsTheyAre : (stopped .halted).state = .halted ∧ (stopped .faulted).state = .faulted ∧
    (stopped .suspendedForInput).state = .suspendedForInput ∧ (stopped .suspendedForInput).pin.ready = false := by decide

theorem witness_ResumeAfterOutputOnlyClearsTheSlot : (stopped .suspendedForOutput).state = .suspendedForOutput := by decide

/-- A core that has been supplied its value, at a program counter. -/
def supplied (pc : Int) : State := { supply (stopped .suspendedForInput) 5#64 with pc := Word.ofInt pc }

/-- The highest program counter that completes. -/
theorem witness_ResumeAfterInputCompletesTheWrite : (supplied (i64Max - 2)).state = .suspendedForInput ∧
    (supplied (i64Max - 2)).pin.ready = true ∧ 0 ≤ (supplied (i64Max - 2)).pc.toInt ∧
    0 ≤ (supplied (i64Max - 2)).pin.dst.toInt ∧ (supplied (i64Max - 2)).pc.toInt + 2 ≤ i64Max := by decide

/-- The lowest program counter that faults. -/
theorem witness_ResumeAfterInputFaultsAtTheTop : (supplied (i64Max - 1)).state = .suspendedForInput ∧
    (supplied (i64Max - 1)).pin.ready = true ∧ i64Max < (supplied (i64Max - 1)).pc.toInt + 2 := by decide

theorem witness_FaultsArePrecise : (core [3, -1, 99]).state = .running ∧
    ∃ t, step (core [3, -1, 99]) = .next t ∧ t.state = .faulted := ⟨by decide, _, rfl, rfl⟩

/-- A fault of each kind an instruction has: the mode, the operand's address, the target, the sum, the successor. -/
theorem witness_FirstFaultIsTaken : 0 ≤ (core [301, 0, 0, 0]).pc.toInt ∧
    instrFault (core [301, 0, 0, 0]) (.add (.undefined 3) .position .position) = some ⟨.invalidMode, 3#64⟩ ∧
    instrFault (core [101, 0, -1, 0]) (.add .immediate .position .position) = some ⟨.addressError, Word.ofInt (-1)⟩ ∧
    instrFault (core [11101, 0, 1, 0]) (.add .immediate .immediate .immediate) = some ⟨.invalidWriteTarget, 0#64⟩ := by
  decide

theorem witness_FirstFaultIsTaken_overflow :
    instrFault (core [1101, i64Max, 1, 0]) (.add .immediate .immediate .position) = some overflowRaise ∧
    0 ≤ (coreAt (i64Max - 1) 0 [104, 5]).pc.toInt ∧
    instrFault (coreAt (i64Max - 1) 0 [104, 5]) (.out .immediate) = some overflowRaise := by decide

theorem witness_InstructionsRaiseOnlyTheirFaults : (core [103, 5]).state ≠ .faulted ∧
    ∃ t, exec (.inp .immediate) (core [103, 5]) = .next t ∧ t.state = .faulted ∧ t.fault.cause = .invalidWriteTarget :=
  ⟨by decide, _, rfl, rfl, rfl⟩

/-- Both conditions, and the highest program counter from which the untaken jump falls through. -/
theorem witness_NegativeTargetOfATakenJumpFaults : ∀ v ∈ [(0 : Int), 1],
    let s := coreAt (i64Max - 3) 0 [1105, v, -1]
    0 ≤ s.pc.toInt ∧ firstOperandFault s 1 [(.read, .immediate), (.read, .immediate)] = none ∧
      (operandValue s 2 .immediate).toInt < 0 ∧ operandValue s 1 .immediate = Word.ofInt v ∧ s.pc.toInt + 3 ≤ i64Max := by
  decide

/-- The largest sum that fits, with a relative destination. -/
theorem witness_AddStoresTheSum : 0 ≤ (coreAt 0 (-1) [21101, i64Max - 1, 1, 6]).pc.toInt ∧
    instrFault (coreAt 0 (-1) [21101, i64Max - 1, 1, 6]) (.add .immediate .immediate .relative) = none := by decide

theorem witness_MulStoresTheProduct : 0 ≤ (core [1102, 4294967296, -2147483648, 0]).pc.toInt ∧
    instrFault (core [1102, 4294967296, -2147483648, 0]) (.mul .immediate .immediate .position) = none := by decide

theorem witness_LtStoresTheComparison : 0 ≤ (core [1107, i64Min, i64Max, 5]).pc.toInt ∧
    instrFault (core [1107, i64Min, i64Max, 5]) (.lt .immediate .immediate .position) = none := by decide

theorem witness_EqStoresTheComparison : 0 ≤ (core [8, 100, 200, 5]).pc.toInt ∧
    instrFault (core [8, 100, 200, 5]) (.eq .position .position .position) = none := by decide

/-- Taken and not taken, for each jump. -/
theorem witness_JumpsSetThePc : ∀ v ∈ [(0 : Int), 1],
    0 ≤ (core [1105, v, 4]).pc.toInt ∧ instrFault (core [1105, v, 4]) (.jt .immediate .immediate) = none ∧
      instrFault (core [1106, v, 4]) (.jf .immediate .immediate) = none := by decide

theorem witness_InRecordsTheRequest : 0 ≤ (coreAt 0 7 [203, -7]).pc.toInt ∧
    instrFault (coreAt 0 7 [203, -7]) (.inp .relative) = none := by decide

theorem witness_OutSurfacesTheValue : 0 ≤ (core [4, 1000, 99]).pc.toInt ∧
    instrFault (core [4, 1000, 99]) (.out .position) = none := by decide

/-- The base reaches the least number. -/
theorem witness_ArbAdjustsTheRelativeBase : 0 ≤ (coreAt 0 (i64Min + 1) [109, -1]).pc.toInt ∧
    instrFault (coreAt 0 (i64Min + 1) [109, -1]) (.arb .immediate) = none := by decide

theorem witness_StoringInstructionsFrame : 0 ≤ (core [1, 0, 0, 0, 99]).pc.toInt ∧
    (core [1, 0, 0, 0, 99]).state ≠ .faulted ∧
    ∃ t, exec (.add .position .position .position) (core [1, 0, 0, 0, 99]) = .next t ∧ t.state ≠ .faulted :=
  ⟨by decide, by decide, _, rfl, by decide⟩

theorem witness_OtherInstructionsFrame : (Instr.arb .immediate).opcode ∈ [3, 4, 5, 6, 9, 99] ∧
    (core [109, 5]).state ≠ .faulted ∧
    ∃ t, exec (.arb .immediate) (core [109, 5]) = .next t ∧ t.state ≠ .faulted :=
  ⟨by decide, by decide, _, rfl, by decide⟩

/-- The greatest and the least sum that fit, and the first ones beyond. -/
theorem witness_AddUnderEachPolicy :
    (Word.ofInt i64Max).toInt + (0#64 : Word).toInt ≤ i64Max ∧ i64Min ≤ (Word.ofInt i64Min).toInt + (0#64 : Word).toInt ∧
    ¬ (i64Min ≤ (Word.ofInt i64Max).toInt + (1#64 : Word).toInt ∧ (Word.ofInt i64Max).toInt + (1#64 : Word).toInt ≤ i64Max) ∧
    ¬ (i64Min ≤ (Word.ofInt i64Min).toInt + (Word.ofInt (-1)).toInt ∧
      (Word.ofInt i64Min).toInt + (Word.ofInt (-1)).toInt ≤ i64Max) := by decide

theorem witness_MulUnderEachPolicy :
    (Word.ofInt i64Max).toInt * (1#64 : Word).toInt ≤ i64Max ∧ i64Min ≤ (Word.ofInt i64Min).toInt * (1#64 : Word).toInt ∧
    ¬ (i64Min ≤ (Word.ofInt i64Min).toInt * (Word.ofInt (-1)).toInt ∧
      (Word.ofInt i64Min).toInt * (Word.ofInt (-1)).toInt ≤ i64Max) := by decide

/-- A negative base whose sum is address 0, one whose sum is -1, and a sum beyond the number format. -/
theorem witness_RelativeModeDereferencesTheSum :
    0 ≤ (coreAt 0 (-5) []).rb.toInt + (5#64 : Word).toInt ∧ (coreAt 0 (-5) []).rb.toInt + (5#64 : Word).toInt ≤ i64Max ∧
    (add64 Config.chip.overflowPolicy (coreAt 0 (-5) []).rb 4#64).toOption = some (Word.ofInt (-1)) ∧
    (add64 Config.chip.overflowPolicy (coreAt 0 i64Max []).rb 1#64).toOption = none := by decide

theorem witness_WritesChangeOneCell : Memory.wf (core [1, 2]).mem = true ∧ 0 ≤ (Word.ofInt i64Max).toInt ∧
    (1#64 : Word) ≠ Word.ofInt i64Max := by decide

theorem witness_TheExtentNeverShrinks : ∃ t, step (core [1101, 1, 1, 1000, 99]) = .next t := ⟨_, rfl⟩

theorem witness_OnlyArbChangesTheRelativeBase : ∃ t, step (core [109, 5]) = .next t ∧ t.rb ≠ (core [109, 5]).rb :=
  ⟨_, rfl, by decide⟩

/-- A store, and the resume of an IN. -/
theorem witness_OnlyStoresAndResumesChangeMemory :
    (∃ t, step (core [1, 0, 0, 0, 99]) = .next t ∧ t.mem ≠ (core [1, 0, 0, 0, 99]).mem) ∧
    ∃ t, step (supplied 0) = .next t ∧ t.mem ≠ (supplied 0).mem :=
  ⟨⟨_, rfl, by decide⟩, _, rfl, by decide⟩

theorem witness_OnlyJumpsLeaveTheStride : (core [1105, 1, 7]).state = .running ∧ 0 ≤ (core [1105, 1, 7]).pc.toInt ∧
    decode (memRead (core [1105, 1, 7]) (core [1105, 1, 7]).pc) = .ok (.jt .immediate .immediate) ∧
    ∃ t, step (core [1105, 1, 7]) = .next t ∧ t.pc ≠ (core [1105, 1, 7]).pc ∧
      t.pc ≠ (core [1105, 1, 7]).pc + BitVec.ofNat 64 (Instr.jt .immediate .immediate).width :=
  ⟨by decide, by decide, by decide, _, rfl, by decide, by decide⟩

theorem witness_InputSuspensionIsAtAnIn : (core [3, 0]).state = .running ∧
    ∃ t, step (core [3, 0]) = .next t ∧ t.state = .suspendedForInput := ⟨by decide, _, rfl, rfl⟩

/-- `1101,98,1,4,7` stores HALT over the next word. -/
theorem witness_StoresAreSeenByTheNextFetch : (core [1101, 98, 1, 4, 7]).Inv ∧
    decode (memRead (core [1101, 98, 1, 4, 7]) (core [1101, 98, 1, 4, 7]).pc) = .ok (.add .immediate .immediate .position) ∧
    instrFault (core [1101, 98, 1, 4, 7]) (.add .immediate .immediate .position) = none ∧
    operandAddress (core [1101, 98, 1, 4, 7]) 3 .position = (core [1101, 98, 1, 4, 7]).pc.toNat + 4 ∧
    decode (BitVec.ofInt 64 ((operandValue (core [1101, 98, 1, 4, 7]) 1 .immediate).toInt +
      (operandValue (core [1101, 98, 1, 4, 7]) 2 .immediate).toInt)) = .ok .halt := by decide

/-- The same for MUL, LT and EQ: the words 99 and 1 over the next cell (95_test_vectors.md M2's shape). -/
theorem witness_StoresAreSeenByTheNextFetch_others :
    (core [1102, 33, 3, 4, 7]).Inv ∧ instrFault (core [1102, 33, 3, 4, 7]) (.mul .immediate .immediate .position) = none ∧
    instrFault (core [1107, 3, 8, 4, 7]) (.lt .immediate .immediate .position) = none ∧
    instrFault (core [1108, 8, 8, 4, 7]) (.eq .immediate .immediate .position) = none ∧
    operandAddress (core [1102, 33, 3, 4, 7]) 3 .position = 4 ∧ operandAddress (core [1107, 3, 8, 4, 7]) 3 .position = 4 ∧
    operandAddress (core [1108, 8, 8, 4, 7]) 3 .position = 4 ∧
    decode 1#64 = .ok (.add .position .position .position) := by decide

/-- An IN at 0 whose destination is cell 2, answered with HALT. -/
def answered : State :=
  { stopped .suspendedForInput with pin := { valid := true, dst := 2#64, ready := true, value := 99#64 } }

theorem witness_StoresAreSeenByTheNextFetch_resume : answered.Inv ∧ answered.state = .suspendedForInput ∧
    answered.pin.ready = true ∧ answered.pc.toInt + 2 ≤ i64Max ∧ answered.pin.dst.toNat = answered.pc.toNat + 2 ∧
    decode answered.pin.value = .ok .halt := by decide

theorem witness_TheExtentIsInvisible : ∃ t, step (core [1101, 1, 1, 1000, 99]) = .next t := ⟨_, rfl⟩

theorem witness_FaultFreeStepsAgreeUnderEveryPolicy :
    ∃ t, stepUnder { Config.chip with overflowPolicy := .fault } (core [1, 0, 0, 0, 99]) = .next t ∧
      ¬ (t.state = .faulted ∧ t.fault.cause = .arithmeticOverflow) := ⟨_, rfl, by decide⟩

/-- The request, and each reason for which `supply` does nothing. -/
theorem witness_SupplyAnswersOneRequest :
    ((stopped .suspendedForInput).state = .suspendedForInput ∧ (stopped .suspendedForInput).pin.valid = true ∧
      (stopped .suspendedForInput).pin.ready = false) ∧
    (stopped .halted).state ≠ .suspendedForInput ∧ (supplied 0).pin.ready = true ∧ (core [99]).pin.valid = false := by
  decide

theorem witness_AnsweredInputArrives : (core [3, 9, 99]).Inv ∧
    decode (memRead (core [3, 9, 99]) (core [3, 9, 99]).pc) = .ok (.inp .position) ∧
    instrFault (core [3, 9, 99]) (.inp .position) = none ∧ (core [3, 9, 99]).pc.toInt + 2 ≤ i64Max := by decide

/-- A next state of every run state, running and not running after a step, and a resume that faults. -/
theorem witness_RunIsTheResumeAndTheSteps :
    (∃ t, stepUnder Config.chip (core [109, 5, 99]) = .next t ∧ t.state = .running) ∧
    (∃ t, stepUnder Config.chip (core [99]) = .next t ∧ t.state ≠ .running) ∧
    (∃ t, stepUnder Config.chip answered = .next t ∧ t.state = .running) ∧
    (∃ t, stepUnder Config.chip (supplied (i64Max - 1)) = .next t ∧ t.state = .faulted) ∧
    ∀ r ∈ [RunState.suspendedForInput, .suspendedForOutput, .halted, .faulted], ∃ t,
      (stopped r).state = r ∧ stepUnder Config.chip (stopped r) = .next t := by
  refine ⟨⟨_, rfl, rfl⟩, ⟨_, rfl, by decide⟩, ⟨_, rfl, rfl⟩, ⟨_, rfl, rfl⟩, ?_⟩
  intro r hr
  simp only [List.mem_cons, List.not_mem_nil, or_false] at hr
  rcases hr with rfl | rfl | rfl | rfl <;> exact ⟨_, rfl, rfl⟩

theorem witness_RunReturnsTheStopItReached : ∃ r t, run Config.chip 2 (core [104, 7, 99]) = .returned r t := ⟨_, _, rfl⟩

theorem witness_RunResultIgnoresTheBound : ∃ r t, run Config.chip 2 (core [104, 7, 99]) = .returned r t := ⟨_, _, rfl⟩

theorem witness_HostCannotTouchRegisters : (∀ program, HostOp.supply 5#64 ≠ .new program) ∧ HostOp.supply 5#64 ≠ .run ∧
    ∃ r t, serve Config.chip 1 (.supply 5#64) (some (stopped .suspendedForInput)) = .reply r (some t) :=
  ⟨by simp, by simp, _, _, rfl⟩

/-- A halted and a faulted core, each poked, run and supplied. -/
theorem witness_HaltedAndFaultedAreForGood : ∀ r ∈ [RunState.halted, RunState.faulted],
    (stopped r).state = r ∧ (serveAll Config.chip 3 [.poke 0#64 99#64, .run, .supply 1#64] (some (stopped r))).isSome = true ∧
      ∀ program, HostOp.new program ∉ [HostOp.poke 0#64 99#64, .run, .supply 1#64] := by
  intro r hr
  refine ⟨?_, ?_, by simp⟩
  · rfl
  · simp only [List.mem_cons, List.not_mem_nil, or_false] at hr
    rcases hr with rfl | rfl <;> decide

theorem witness_PeekAnswersTheCell : 0 ≤ (Word.ofInt i64Max).toInt ∧ (Word.ofInt (-1)).toInt < 0 := by decide

/-- Addresses of every clause, and a poke at the program counter. -/
theorem witness_PokeWritesOneCell : Memory.wf (core [98]).mem = true ∧ 0 ≤ (0#64 : Word).toInt ∧
    0 ≤ (Word.ofInt i64Max).toInt ∧ (Word.ofInt (-1)).toInt < 0 ∧ (0#64 : Word) = (core [98]).pc ∧
    (core [98]).state = .running ∧ decode 99#64 = .ok .halt := by decide

theorem witness_DebugDumpAnswersTheStore : 9 < (core [1, 0, 0, 0, 99]).msize := by decide

theorem witness_OtherCoresAreUntouched :
    ∃ r after, serveAt Config.chip 1 (.supply 5#64) 0 [some (core [99]), some (core [4, 0, 99])] = some (r, after) ∧ 1 ≠ 0 :=
  ⟨_, _, rfl, by decide⟩

end Sys2Proof.Tests
end

section
/-! PROOFS. The statements of 10_state.md: what `new` makes, the invariants of R24, and what single steps leave alone. -/

namespace Sys2Proof.Machine

/-! ## The updates of State keep the invariants (10_state.md R24) -/

/-- A running core has no slot valid and no fault (10_state.md R24). -/
theorem State.SlotsAgree.of_running {s : State} (h : s.SlotsAgree) (hr : s.state = .running) :
    s.pin.valid = false ∧ s.pin.ready = false ∧ s.pout.valid = false ∧ s.fault.valid = false := by
  obtain ⟨hin, hout, hfault, hready⟩ := h
  simp_all

theorem State.Inv.takeFault {s : State} (h : s.Inv) (r : Raise) : (s.takeFault r).Inv := by
  obtain ⟨-, ⟨hpc, -, -⟩, hmem⟩ := h
  exact ⟨⟨by simp, by simp, by simp, by simp⟩, ⟨hpc, by simp, fun _ => hpc⟩, hmem⟩

theorem State.Inv.setPc {s : State} (h : s.Inv) {target : Word} (ht : 0 ≤ target.toInt) : (s.setPc target).Inv := by
  obtain ⟨hslots, ⟨-, hdst, hfpc⟩, hmem⟩ := h
  exact ⟨hslots, ⟨ht, hdst, hfpc⟩, hmem⟩

theorem State.Inv.setRb {s : State} (h : s.Inv) (base : Word) : (s.setRb base).Inv := h

theorem State.Inv.storeCell {c : Config} (hc : c.Conforms) {s : State} (h : s.Inv) {a : Nat} (ha : a < c.memMax)
    (v : Word) : (s.storeCell c a v).Inv := by
  obtain ⟨hslots, haddr, hwf, hbelow⟩ := h
  have hcovered := Memory.below_write_grown hc hbelow a v
  obtain ⟨-, hmax, -, -⟩ := hc
  exact ⟨hslots, haddr, Memory.wf_write hwf (by omega) v, hcovered⟩

theorem State.Inv.requestInput {s : State} (h : s.Inv) (hr : s.state = .running) {d : Word} (hd : 0 ≤ d.toInt) :
    (s.requestInput d).Inv := by
  obtain ⟨hslots, ⟨hpc, -, hfpc⟩, hmem⟩ := h
  obtain ⟨-, -, hout, hfault⟩ := hslots.of_running hr
  exact ⟨⟨by simp, by simp [hout], by simp [hfault], by simp⟩, ⟨hpc, fun _ => hd, hfpc⟩, hmem⟩

theorem State.Inv.surfaceOutput {s : State} (h : s.Inv) (hr : s.state = .running) (v : Word) :
    (s.surfaceOutput v).Inv := by
  obtain ⟨hslots, haddr, hmem⟩ := h
  obtain ⟨hin, hready, -, hfault⟩ := hslots.of_running hr
  exact ⟨⟨by simp [hin], by simp, by simp [hfault], by simp [hready]⟩, haddr, hmem⟩

theorem State.Inv.halt {s : State} (h : s.Inv) (hr : s.state = .running) : (s.setRun .halted).Inv := by
  obtain ⟨hslots, haddr, hmem⟩ := h
  obtain ⟨hin, hready, hout, hfault⟩ := hslots.of_running hr
  exact ⟨⟨by simp [hin], by simp [hout], by simp [hfault], by simp [hready]⟩, haddr, hmem⟩

/-- The end of `Resume_output` (46_host_operations.md R123). -/
theorem State.Inv.resumeOutput {s : State} (h : s.Inv) (hs : s.state = .suspendedForOutput) :
    (s.clearOutput.setRun .running).Inv := by
  obtain ⟨⟨hin, -, hfault, hready⟩, haddr, hmem⟩ := h
  exact ⟨⟨by simp_all, by simp, by simp_all, hready⟩, haddr, hmem⟩

/-- The end of `Resume_input` (46_host_operations.md R124). -/
theorem State.Inv.resumeInput {s : State} (h : s.Inv) (hs : s.state = .suspendedForInput) :
    (s.clearInput.setRun .running).Inv := by
  obtain ⟨⟨-, hout, hfault, -⟩, ⟨hpc, -, hfpc⟩, hmem⟩ := h
  exact ⟨⟨by simp, by simp_all, by simp_all, by simp⟩, ⟨hpc, by simp, hfpc⟩, hmem⟩

theorem State.Inv.latchInput {s : State} (h : s.Inv) (hv : s.pin.valid = true) (v : Word) : (s.latchInput v).Inv := by
  obtain ⟨⟨hin, hout, hfault, -⟩, haddr, hmem⟩ := h
  exact ⟨⟨hin, hout, hfault, fun _ => hv⟩, haddr, hmem⟩

/-! ## Steps keep the invariants -/

section
variable {c : Config} (hc : c.Conforms) {s t : State} (hinv : s.Inv)
include hc hinv

/-- Every instruction of a running core keeps the invariants, under every configuration that conforms. -/
theorem execUnder_keeps_inv {i : Instr} (hr : s.state = .running) (h : execUnder c i s = .next t) : t.Inv := by
  rcases execUnder_eq_next h with ⟨r, rfl⟩ | ⟨-, d, v, nxt, -, hnxt, hlt, rfl⟩ | ⟨-, nxt, hnxt, rfl⟩ |
    ⟨-, d, hd, rfl⟩ | ⟨-, v, nxt, hnxt, rfl⟩ | ⟨-, base, nxt, hnxt, rfl⟩ | ⟨-, rfl⟩
  · exact hinv.takeFault r
  · exact (hinv.storeCell hc hlt v).setPc (successor_nonneg hnxt)
  · exact hinv.setPc hnxt
  · exact hinv.requestInput hr hd
  · exact (hinv.surfaceOutput hr v).setPc (successor_nonneg hnxt)
  · exact (hinv.setRb base).setPc (successor_nonneg hnxt)
  · exact hinv.halt hr

/-- The resume of an IN keeps the invariants. -/
theorem resumeInput_keeps_inv (hs : s.state = .suspendedForInput) (h : resumeInput c s = .next t) : t.Inv := by
  rcases resumeInput_eq_next h with ⟨r, rfl⟩ | ⟨nxt, hnxt, hlt, rfl⟩
  · exact hinv.takeFault r
  · exact ((hinv.storeCell hc hlt _).setPc (successor_nonneg hnxt)).resumeInput hs

/-- Every step keeps the invariants, under every configuration that conforms. -/
theorem stepUnder_keeps_inv (h : stepUnder c s = .next t) : t.Inv := by
  rcases advance_eq_next h with ⟨hr, h⟩ | ⟨-, -, rfl⟩ | ⟨hs, -, h⟩ | ⟨hs, rfl⟩ | ⟨-, rfl⟩ | ⟨-, rfl⟩
  · rcases executeNext_eq_next h with ⟨-, r, rfl⟩ | ⟨i, -, h⟩
    · exact hinv.takeFault r
    · exact execUnder_keeps_inv hc hinv hr h
  · exact hinv
  · exact resumeInput_keeps_inv hc hinv hs h
  · exact hinv.resumeOutput hs
  · exact hinv
  · exact hinv

end

/-- Settles O13: each shape a step's effect can take keeps the invariants, by the lemma of its updates. -/
theorem stepKeepsTheInvariants : Obligations.StepKeepsTheInvariants := fun s _ hinv h =>
  stepUnder_keeps_inv Config.chip_conforms hinv ((stepUnder_chip s).trans h)

/-! ## Reset and new -/

/-- Settles O9: the length of the empty program is 0, and so is the extent, whatever the factor. -/
theorem resetHasTheStatedValues : Obligations.ResetHasTheStatedValues :=
  ⟨fun _ => newCore_eq_some.mpr ⟨Nat.zero_le _, rfl⟩, rfl, rfl, rfl, rfl, rfl, rfl, rfl, rfl, Memory.read_nil⟩

/-- Settles O11: every slot is empty, and the memory lists nothing. -/
theorem resetMeetsTheInvariants : Obligations.ResetMeetsTheInvariants := by
  unfold Obligations.ResetMeetsTheInvariants
  decide

@[simp] theorem State.loaded_mem (c : Config) (program : List Word) :
    (State.loaded c program).mem = Memory.load [] 0 program := rfl

/-- Settles O10, by reading back a loaded list. -/
theorem newLoadsTheProgram : Obligations.NewLoadsTheProgram := by
  intro c program
  constructor
  · intro hprog haddr
    refine ⟨State.loaded c program, newCore_eq_some.mpr ⟨hprog, rfl⟩, fun k => ?_, rfl, rfl, rfl, rfl, rfl, rfl, rfl, rfl⟩
    rw [State.loaded_mem, Memory.read_load rfl (by omega), Nat.sub_zero]
    split
    · rfl
    · next hk => rw [Memory.read_nil, List.getD_eq_default _ _ (by omega)]
  · intro hlong
    exact if_neg (Nat.not_le_of_lt hlong)

/-- A program that fits the address space, under an initial extent that covers it, is loaded into a core that meets the
invariants (10_state.md R24, R25). -/
theorem State.loaded_inv {c : Config} (hc : 1 ≤ c.memInitFactor) {program : List Word}
    (hlen : program.length ≤ addrCount) : (State.loaded c program).Inv := by
  obtain ⟨hslots, haddr, -⟩ := resetMeetsTheInvariants
  have hcover : 0 + program.length ≤ c.memInitFactor * program.length := by
    rw [Nat.zero_add]; exact Nat.le_mul_of_pos_left _ hc
  exact ⟨hslots, haddr, Memory.wf_load rfl (by omega), Memory.below_load rfl hcover⟩

/-- Under a configuration that conforms `new` makes only cores that meet the invariants. -/
theorem newCore_inv {c : Config} (hc : c.Conforms) {program : List Word} {s : State}
    (h : newCore c program = some s) : s.Inv := by
  obtain ⟨-, hmem, hprog, hfactor⟩ := hc
  obtain ⟨hlen, rfl⟩ := newCore_eq_some.mp h
  exact State.loaded_inv hfactor (by omega)

/-- Settles O12: a core that `new` makes is the loaded one. -/
theorem newMeetsTheInvariants : Obligations.NewMeetsTheInvariants := by
  refine ⟨fun _ _ h => newCore_inv Config.chip_conforms h, fun c program s hfactor hlen h => ?_⟩
  obtain ⟨-, rfl⟩ := newCore_eq_some.mp h
  exact State.loaded_inv hfactor hlen

/-! ## Host operations keep the invariants -/

/-- `supply` keeps the invariants: it marks a slot ready only when the slot is valid (46_host_operations.md R125). -/
theorem supply_keeps_inv {s : State} (hinv : s.Inv) (v : Word) : (supply s v).Inv := by
  unfold supply
  split
  · next hreq =>
    obtain ⟨-, hvalid, -⟩ := hreq
    exact hinv.latchInput hvalid v
  · exact hinv

section
variable {c : Config} (hc : c.Conforms) {s t : State} (hinv : s.Inv)
include hc hinv

/-- The loop of `run` keeps the invariants, by induction on its bound. -/
theorem runLoop_keeps_inv {r : RunResult} {fuel : Nat} (h : runLoop c fuel s = .returned r t) : t.Inv := by
  induction fuel generalizing s with
  | zero =>
    unfold runLoop at h
    split at h
    · cases h; exact hinv
    · cases h
  | succ n ih =>
    unfold runLoop at h
    split at h
    · cases h; exact hinv
    · dsimp only at h
      split at h
      · next u hstep => exact ih (stepUnder_keeps_inv hc hinv hstep) h
      · next r _ => exact nomatch r
      · cases h

/-- `run` keeps the invariants, whatever its bound. -/
theorem run_keeps_inv {r : RunResult} {fuel : Nat} (h : run c fuel s = .returned r t) : t.Inv := by
  unfold run at h
  split at h
  · exact runLoop_keeps_inv hc hinv h
  · split at h
    · next u hstep => exact runLoop_keeps_inv hc (stepUnder_keeps_inv hc hinv hstep) h
    · next r _ => exact nomatch r
    · cases h

/-- `poke` keeps the invariants, and so does one that is answered with an error (46_host_operations.md R127). -/
theorem servePoke_keeps_inv {a v : Word} {r : Reply} (h : servePoke c s a v = .reply r (some t)) : t.Inv := by
  unfold servePoke at h
  split at h
  · cases h; exact hinv
  · split at h
    · next u hw =>
      cases h
      obtain ⟨hlt, rfl⟩ := memWrite_eq_ok.mp hw
      exact hinv.storeCell hc hlt v
    · cases h

theorem serveRun_keeps_inv {fuel : Nat} {r : Reply} (h : serveRun c fuel s = .reply r (some t)) : t.Inv := by
  unfold serveRun at h
  split at h
  · next hrun => cases h; exact run_keeps_inv hc hinv hrun
  · cases h
  · cases h

end

/-- `peek` answers the core it was given (46_host_operations.md R126). -/
theorem servePeek_eq_reply {s t : State} {a : Word} {r : Reply} (h : servePeek s a = .reply r (some t)) : t = s := by
  unfold servePeek at h
  split at h <;> cases h <;> rfl

/-- `new` answers a loaded core, or leaves what was there (70_reset_and_hazards.md R171). -/
theorem serveNew_eq_reply {c : Config} {program : List Word} {before after : Option State} {r : Reply}
    (h : serveNew c program before = .reply r after) :
    (∃ s, newCore c program = some s ∧ after = some s) ∨ after = before := by
  unfold serveNew at h
  split at h
  · next s hs => cases h; exact .inl ⟨s, hs, rfl⟩
  · cases h; exact .inr rfl

/-- Every host operation that is served keeps the invariants, under every configuration that conforms. -/
theorem serve_keeps_inv {c : Config} (hc : c.Conforms) {fuel : Nat} {op : HostOp} {core : Option State} {t : State}
    {r : Reply} (hcore : ∀ s, core = some s → s.Inv) (h : serve c fuel op core = .reply r (some t)) : t.Inv := by
  cases op with
  | new program =>
    rcases serveNew_eq_reply h with ⟨s, hs, ⟨⟩⟩ | hsame
    · exact newCore_inv hc hs
    · exact hcore t hsame.symm
  | run =>
    cases core with
    | none => cases h
    | some s => exact serveRun_keeps_inv hc (hcore s rfl) h
  | supply v =>
    cases core with
    | none => cases h
    | some s => cases h; exact supply_keeps_inv (hcore s rfl) v
  | peek a =>
    cases core with
    | none => cases h
    | some s =>
      have hsame := servePeek_eq_reply h
      exact hcore t (congrArg some hsame.symm)
  | poke a v =>
    cases core with
    | none => cases h
    | some s => exact servePoke_keeps_inv hc (hcore s rfl) h
  | debugDump =>
    cases core with
    | none => cases h
    | some s => cases h; exact hcore t rfl

/-- Settles O14, operation by operation; `run` by induction on its bound. -/
theorem hostOperationsKeepTheInvariants : Obligations.HostOperationsKeepTheInvariants :=
  fun _ _ _ _ _ hcore h => serve_keeps_inv Config.chip_conforms hcore h

/-! ## What single steps leave alone -/

/-- A running core's step takes a fault, or executes the instruction its cell selects. -/
theorem stepUnder_eq_next_of_running {c : Config} {s t : State} (hr : s.state = .running)
    (h : stepUnder c s = .next t) :
    (∃ r, t = s.takeFault r) ∨ ∃ i, selectInstr (memRead s s.pc) = some i ∧ execUnder c i s = .next t := by
  have h : executeNext (execUnder c) s = .next t := by simpa only [stepUnder, advance, hr] using h
  exact (executeNext_eq_next h).imp_left (·.2)

/-- An operand whose mode digit passes its check is in one of the three modes. -/
theorem checkMode_eq_ok {m m' : Mode} (h : checkMode m = .ok m') : m' = m ∧ m.legalRead = true := by
  cases m <;> cases h <;> exact ⟨rfl, rfl⟩

/-- A read operand with a value has a legal mode (30_encoding.md R58). -/
theorem legalRead_of_readOperand {c : Config} {s : State} {k : Nat} {m : Mode} {v : Word}
    (h : readOperand c s k m = .ok v) : m.legalRead = true := by
  obtain ⟨m', hm, -⟩ := Check.bind_eq_ok.mp h
  exact (checkMode_eq_ok hm).2

/-- A write operand with an address has a legal mode (30_encoding.md R58, R59). -/
theorem legalWrite_of_writeTarget {c : Config} {s : State} {k : Nat} {m : Mode} {d : Word}
    (h : writeTarget c s k m = .ok d) : m.legalWrite = true := by
  obtain ⟨m', hm, hrest⟩ := Check.bind_eq_ok.mp h
  obtain ⟨rfl, hlegal⟩ := checkMode_eq_ok hm
  obtain ⟨w, -, haddr⟩ := Check.bind_eq_ok.mp hrest
  cases m' with
  | position => rfl
  | immediate => exact nomatch haddr
  | relative => rfl
  | undefined d => exact nomatch hlegal

/-- An instruction that completes is well-formed: an illegal mode faults (60_exceptions.md R143, R145). -/
theorem wellFormed_of_execUnder {c : Config} {i : Instr} {s t : State} (h : execUnder c i s = .next t) :
    (∃ r, t = s.takeFault r) ∨ i.wellFormed = true := by
  have store : ∀ {op a b dst}, computeAndStore c op a b dst s = .next t →
      (∃ r, t = s.takeFault r) ∨ (a.legalRead && b.legalRead && dst.legalWrite) = true := by
    intro op a b dst h
    refine (computeAndStore_eq_next h).imp_right ?_
    rintro ⟨_, _, _, _, _, ha, hb, hd, -⟩
    simp [legalRead_of_readOperand ha, legalRead_of_readOperand hb, legalWrite_of_writeTarget hd]
  have jump : ∀ {taken a target}, jumpWhen c taken a target s = .next t →
      (∃ r, t = s.takeFault r) ∨ (a.legalRead && target.legalRead) = true := by
    intro taken a target h
    refine (jumpWhen_eq_next h).imp_right ?_
    rintro ⟨_, _, _, ha, hb, -⟩
    simp [legalRead_of_readOperand ha, legalRead_of_readOperand hb]
  cases i with
  | add a b dst => exact store h
  | mul a b dst => exact store h
  | lt a b dst => exact store h
  | eq a b dst => exact store h
  | jt a target => exact jump h
  | jf a target => exact jump h
  | inp dst => exact (inpUnder_eq_next h).imp_right fun ⟨_, hd, _⟩ => legalWrite_of_writeTarget hd
  | out a => exact (outUnder_eq_next h).imp_right fun ⟨_, _, ha, _⟩ => legalRead_of_readOperand ha
  | arb a => exact (arbUnder_eq_next h).imp_right fun ⟨_, _, _, ha, _⟩ => legalRead_of_readOperand ha
  | halt => exact .inr rfl

/-- A running core's step takes a fault, or executes the legal instruction its cell decodes to. -/
theorem stepUnder_decodes_of_running {c : Config} {s t : State} (hr : s.state = .running)
    (h : stepUnder c s = .next t) :
    (∃ r, t = s.takeFault r) ∨ ∃ i, decode (memRead s s.pc) = .ok i ∧ execUnder c i s = .next t := by
  rcases stepUnder_eq_next_of_running hr h with hfault | ⟨i, hi, hexec⟩
  · exact .inl hfault
  · exact (wellFormed_of_execUnder hexec).imp_right fun hwf =>
      ⟨i, decode_eq_ok.mpr ⟨hi, (wellFormed_iff i).mp hwf⟩, hexec⟩

/-- Only ARB has opcode 9 (30_encoding.md R56). -/
theorem eq_arb_of_opcode {i : Instr} (h : i.opcode = 9) : ∃ m, i = .arb m := by
  cases i <;> simp_all [Instr.opcode]

/-- Every instruction but ARB keeps the relative base (10_state.md R15). -/
theorem execUnder_rb {c : Config} {i : Instr} {s t : State} (h : execUnder c i s = .next t) (hop : i.opcode ≠ 9) :
    t.rb = s.rb := by
  rcases execUnder_eq_next h with ⟨r, rfl⟩ | ⟨-, d, v, nxt, -, -, -, rfl⟩ | ⟨-, nxt, -, rfl⟩ | ⟨-, d, -, rfl⟩ |
    ⟨-, v, nxt, -, rfl⟩ | ⟨hnine, -⟩ | ⟨-, rfl⟩
  exacts [rfl, rfl, rfl, rfl, rfl, absurd hnine hop, rfl]

/-- Outside `Running` a step keeps the relative base: a resume writes memory, `pc` and the slots. -/
theorem stepUnder_rb_of_not_running {c : Config} {s t : State} (hr : s.state ≠ .running)
    (h : stepUnder c s = .next t) : t.rb = s.rb := by
  rcases advance_eq_next h with ⟨hs, -⟩ | ⟨-, -, rfl⟩ | ⟨-, -, h⟩ | ⟨-, rfl⟩ | ⟨-, rfl⟩ | ⟨-, rfl⟩
  · exact absurd hs hr
  · rfl
  · rcases resumeInput_eq_next h with ⟨r, rfl⟩ | ⟨nxt, -, -, rfl⟩ <;> rfl
  · rfl
  · rfl
  · rfl

/-- Settles O43: no effect but ARB's names `rb`, and an ARB that completes has a legal mode. -/
theorem onlyArbChangesTheRelativeBase : Obligations.OnlyArbChangesTheRelativeBase := by
  intro s t h hrb
  rw [← stepUnder_chip] at h
  have hr : s.state = .running := by_contra fun hr => hrb (stepUnder_rb_of_not_running hr h)
  rcases stepUnder_decodes_of_running hr h with ⟨r, rfl⟩ | ⟨i, hi, hexec⟩
  · exact absurd rfl hrb
  · obtain ⟨m, rfl⟩ := eq_arb_of_opcode (by_contra fun hop => hrb (execUnder_rb hexec hop))
    exact ⟨hr, m, hi⟩

/-- A successor address of the hardware, in words (40_cycle_and_operands.md R79). -/
theorem eq_add_of_successor_chip {s : State} {k : Nat} {t : Word} (hpc : 0 ≤ s.pc.toInt) (hk : k < 2 ^ 63)
    (h : successor Config.chip s k = .ok t) : t = s.pc + BitVec.ofNat 64 k := by
  rw [successor_chip hpc hk] at h
  split at h <;> cases h
  rfl

/-- The widths of the instructions that go on at their successor address (30_encoding.md R50, R52). -/
theorem width_of_opcode {i : Instr} :
    (i.opcode ∈ [1, 2, 7, 8] → i.width = 4) ∧ (i.opcode = 4 → i.width = 2) ∧ (i.opcode = 9 → i.width = 2) := by
  cases i <;> simp [Instr.opcode, Instr.width, Instr.operands]

/-- Settles O45: every effect but a jump's leaves `pc` alone or at the successor of the instruction's width. -/
theorem onlyJumpsLeaveTheStride : Obligations.OnlyJumpsLeaveTheStride := by
  intro s t i hr hpc hi h hstay hstride
  obtain ⟨hsel, -⟩ := decode_eq_ok.mp hi
  have h : exec i s = .next t := by simpa only [step, advance, hr, executeNext, hsel] using h
  rw [← execUnder_chip] at h
  obtain ⟨hstore, hout, harb⟩ := width_of_opcode (i := i)
  rcases execUnder_eq_next h with ⟨r, rfl⟩ | ⟨hop, d, v, nxt, -, hnxt, -, rfl⟩ | ⟨hop, -⟩ | ⟨-, d, -, rfl⟩ |
    ⟨hop, v, nxt, hnxt, rfl⟩ | ⟨hop, base, nxt, hnxt, rfl⟩ | ⟨-, rfl⟩
  · exact absurd rfl hstay
  · exact absurd (hstore hop ▸ eq_add_of_successor_chip hpc (by omega) hnxt) hstride
  · simpa using hop
  · exact absurd rfl hstay
  · exact absurd (hout hop ▸ eq_add_of_successor_chip hpc (by omega) hnxt) hstride
  · exact absurd (harb hop ▸ eq_add_of_successor_chip hpc (by omega) hnxt) hstride
  · exact absurd rfl hstay

/-- An instruction that suspends a running core for input is an IN, and records its request only. -/
theorem execUnder_suspends_for_input {c : Config} {i : Instr} {s t : State} (hr : s.state = .running)
    (h : execUnder c i s = .next t) (hs : t.state = .suspendedForInput) :
    i.opcode = 3 ∧ ∃ d, t = s.requestInput d := by
  have hne : s.state ≠ .suspendedForInput := by simp [hr]
  rcases execUnder_eq_next h with ⟨r, rfl⟩ | ⟨-, d, v, nxt, -, -, -, rfl⟩ | ⟨-, nxt, -, rfl⟩ | ⟨hop, d, -, ht⟩ |
    ⟨-, v, nxt, -, rfl⟩ | ⟨-, base, nxt, -, rfl⟩ | ⟨-, rfl⟩
  · exact nomatch hs
  · exact absurd hs hne
  · exact absurd hs hne
  · exact ⟨hop, d, ht⟩
  · exact nomatch hs
  · exact absurd hs hne
  · exact nomatch hs

/-- Settles O46: of the effects of an instruction only IN's suspends for input, and it leaves `pc` and memory alone. -/
theorem inputSuspensionIsAtAnIn : Obligations.InputSuspensionIsAtAnIn := by
  intro s t hr h hs
  rw [← stepUnder_chip] at h
  rcases stepUnder_eq_next_of_running hr h with ⟨r, rfl⟩ | ⟨i, hi, hexec⟩
  · exact nomatch hs
  · obtain ⟨hop, d, rfl⟩ := execUnder_suspends_for_input hr hexec hs
    have hcell : opcodeOf (memRead s s.pc) = 3 := by rw [opcodeOf_selectInstr hi, hop]; rfl
    exact ⟨rfl, hcell⟩

/-! ## The extent is invisible (10_state.md R20) -/

/-- A state with another extent. -/
def State.withExtent (s : State) (extent : Nat) : State := { s with msize := extent }

@[simp] theorem State.withExtent_pc (s : State) (e : Nat) : (s.withExtent e).pc = s.pc := rfl
@[simp] theorem State.withExtent_state (s : State) (e : Nat) : (s.withExtent e).state = s.state := rfl
@[simp] theorem State.withExtent_pin (s : State) (e : Nat) : (s.withExtent e).pin = s.pin := rfl
@[simp] theorem memRead_withExtent (s : State) (e : Nat) (a : Word) : memRead (s.withExtent e) a = memRead s a := rfl

/-- An outcome, with the extent of its next state forgotten. -/
def forgetExtent : Outcome → Outcome
  | .next t => .next (t.withExtent 0)
  | .fault r => .fault r
  | .refused r => .refused r

/-- An outcome that is a next state but for its extent is that next state with some extent. -/
theorem eq_next_of_forgetExtent {o : Outcome} {t : State} (h : forgetExtent o = forgetExtent (.next t)) :
    ∃ e, o = .next (t.withExtent e) := by
  cases o with
  | next u =>
    obtain ⟨pc, rb, state, pin, pout, fault, mem, msize⟩ := u
    simp only [forgetExtent, State.withExtent, Host.Outcome.next.injEq, State.mk.injEq] at h
    obtain ⟨rfl, rfl, rfl, rfl, rfl, rfl, rfl, -⟩ := h
    exact ⟨msize, rfl⟩
  | fault r => cases h
  | refused r => cases h

section
variable (c : Config) (s : State) (extent : Nat)

/-- A check that is the same for both extents can be taken off the front: either both take its fault, or both go on.
Every check of an operand is the same for both by definition, since it reads `pc`, `rb` and memory only. -/
theorem forgetExtent_settle_bind {α : Type} (x : Check α) {f g : α → Check Outcome}
    (h : ∀ a, forgetExtent (settle (s.withExtent extent) (f a)) = forgetExtent (settle s (g a))) :
    forgetExtent (settle (s.withExtent extent) (x >>= f)) = forgetExtent (settle s (x >>= g)) := by
  cases x with
  | ok a => exact h a
  | error r => rfl

theorem forgetExtent_commitStore (d v nxt : Word) :
    forgetExtent (commitStore c (s.withExtent extent) d v nxt) = forgetExtent (commitStore c s d v nxt) := by
  unfold commitStore memWrite
  split_ifs <;> rfl

theorem forgetExtent_computeAndStore (op : Word → Word → Check Word) (a b dst : Mode) :
    forgetExtent (computeAndStore c op a b dst (s.withExtent extent)) =
      forgetExtent (computeAndStore c op a b dst s) :=
  forgetExtent_settle_bind s extent (readOperand c s 1 a) fun v1 =>
  forgetExtent_settle_bind s extent (readOperand c s 2 b) fun v2 =>
  forgetExtent_settle_bind s extent (writeTarget c s 3 dst) fun d =>
  forgetExtent_settle_bind s extent (op v1 v2) fun r =>
  forgetExtent_settle_bind s extent (successor c s 4) fun nxt =>
  forgetExtent_commitStore c s extent d r nxt

theorem forgetExtent_jumpWhen (taken : Word → Bool) (a target : Mode) :
    forgetExtent (jumpWhen c taken a target (s.withExtent extent)) = forgetExtent (jumpWhen c taken a target s) :=
  forgetExtent_settle_bind s extent (readOperand c s 1 a) fun v1 =>
  forgetExtent_settle_bind s extent (readOperand c s 2 target) fun v2 =>
  forgetExtent_settle_bind s extent (jumpTarget c (taken v1) v2 s) fun _ => rfl

/-- No instruction depends on the extent. -/
theorem forgetExtent_execUnder (i : Instr) :
    forgetExtent (execUnder c i (s.withExtent extent)) = forgetExtent (execUnder c i s) := by
  cases i with
  | add a b dst => exact forgetExtent_computeAndStore c s extent _ a b dst
  | mul a b dst => exact forgetExtent_computeAndStore c s extent _ a b dst
  | lt a b dst => exact forgetExtent_computeAndStore c s extent _ a b dst
  | eq a b dst => exact forgetExtent_computeAndStore c s extent _ a b dst
  | jt a target => exact forgetExtent_jumpWhen c s extent _ a target
  | jf a target => exact forgetExtent_jumpWhen c s extent _ a target
  | inp dst => exact forgetExtent_settle_bind s extent (writeTarget c s 1 dst) fun _ => rfl
  | out a =>
    exact forgetExtent_settle_bind s extent (readOperand c s 1 a) fun _ =>
      forgetExtent_settle_bind s extent (successor c s 2) fun _ => rfl
  | arb a =>
    exact forgetExtent_settle_bind s extent (readOperand c s 1 a) fun v =>
      forgetExtent_settle_bind s extent (add64 c.overflowPolicy s.rb v) fun _ =>
      forgetExtent_settle_bind s extent (successor c s 2) fun _ => rfl
  | halt => rfl

theorem forgetExtent_resumeInput :
    forgetExtent (resumeInput c (s.withExtent extent)) = forgetExtent (resumeInput c s) :=
  forgetExtent_settle_bind s extent (successor c s 2) fun _ => by
    simp only [Check.pure_eq, settle_ok, State.withExtent_pin]
    unfold memWrite
    split_ifs <;> rfl

/-- No step depends on the extent, under every configuration. -/
theorem forgetExtent_stepUnder :
    forgetExtent (stepUnder c (s.withExtent extent)) = forgetExtent (stepUnder c s) := by
  unfold stepUnder advance
  rw [State.withExtent_state, State.withExtent_pin]
  cases s.state with
  | running =>
    simp only [executeNext, State.withExtent_pc, memRead_withExtent]
    cases selectInstr (memRead s s.pc) with
    | none => rfl
    | some i => exact forgetExtent_execUnder c s extent i
  | suspendedForInput =>
    cases s.pin.ready with
    | false => rfl
    | true => exact forgetExtent_resumeInput c s extent
  | suspendedForOutput => rfl
  | halted => rfl
  | faulted => rfl

end

/-- Settles O48: both steps make the same checks, and their next states differ in the extent alone. -/
theorem theExtentIsInvisible : Obligations.TheExtentIsInvisible := by
  intro s t extent h
  apply eq_next_of_forgetExtent
  rw [← h, ← stepUnder_chip, ← stepUnder_chip]
  exact forgetExtent_stepUnder Config.chip s extent

end Sys2Proof.Machine
end

section
/-! PROOFS. The statements of 20_memory.md: what a write changes, which steps change memory, and that a store is seen by
the next fetch. -/

namespace Sys2Proof.Machine

/-! ## One write (20_memory.md R33, R34) -/

/-- In a canonical memory the cell just stored reads as the value stored. -/
theorem memRead_storeCell_same (c : Config) {s : State} (hwf : Memory.wf s.mem = true) (a v : Word) :
    memRead (s.storeCell c a.toNat v) a = v :=
  Memory.read_write_same hwf a.toNat v

/-- Every other address reads as before. -/
theorem memRead_storeCell_ne (c : Config) (s : State) {a b : Word} (v : Word) (h : b ≠ a) :
    memRead (s.storeCell c a.toNat v) b = memRead s b :=
  Memory.read_write_ne s.mem v fun heq => h (BitVec.eq_of_toNat_eq heq)

/-- Settles O41: on the hardware a write to an address is `State.storeCell`. -/
theorem writesChangeOneCell : Obligations.WritesChangeOneCell := fun s a v hwf ha =>
  ⟨s.storeCell Config.chip a.toNat v, memWrite_chip ha s v, memRead_storeCell_same _ hwf a v,
    fun _ hb => memRead_storeCell_ne _ s v hb, rfl, rfl, rfl, rfl, rfl, rfl, rfl⟩

/-! ## The extent never decreases (20_memory.md R34) -/

theorem le_grownExtent {c : Config} (hc : c.Conforms) (extent a : Nat) : extent ≤ grownExtent c extent a := by
  obtain ⟨hgrow, -⟩ := hc
  unfold grownExtent
  split
  · next hle => exact hle.trans (hgrow extent a hle).le
  · exact le_refl extent

section
variable {c : Config} (hc : c.Conforms) {s t : State}
include hc

theorem execUnder_extent_le {i : Instr} (h : execUnder c i s = .next t) : s.msize ≤ t.msize := by
  rcases execUnder_eq_next h with ⟨r, rfl⟩ | ⟨-, d, v, nxt, -, -, -, rfl⟩ | ⟨-, nxt, -, rfl⟩ | ⟨-, d, -, rfl⟩ |
    ⟨-, v, nxt, -, rfl⟩ | ⟨-, base, nxt, -, rfl⟩ | ⟨-, rfl⟩
  case inr.inl => exact le_grownExtent hc s.msize d.toNat
  all_goals exact le_refl s.msize

theorem resumeInput_extent_le (h : resumeInput c s = .next t) : s.msize ≤ t.msize := by
  rcases resumeInput_eq_next h with ⟨r, rfl⟩ | ⟨nxt, -, -, rfl⟩
  · exact le_refl s.msize
  · exact le_grownExtent hc s.msize s.pin.dst.toNat

/-- No step makes the extent smaller, under every configuration that conforms. -/
theorem stepUnder_extent_le (h : stepUnder c s = .next t) : s.msize ≤ t.msize := by
  rcases advance_eq_next h with ⟨hr, -⟩ | ⟨-, -, rfl⟩ | ⟨-, -, h⟩ | ⟨-, rfl⟩ | ⟨-, rfl⟩ | ⟨-, rfl⟩
  · rcases stepUnder_eq_next_of_running hr h with ⟨r, rfl⟩ | ⟨i, -, hexec⟩
    · exact le_refl s.msize
    · exact execUnder_extent_le hc hexec
  · exact le_refl _
  · exact resumeInput_extent_le hc h
  · exact le_refl s.msize
  · exact le_refl _
  · exact le_refl _

end

/-- Settles O42: a store grows the extent or leaves it, and nothing else touches it. -/
theorem theExtentNeverShrinks : Obligations.TheExtentNeverShrinks := fun s _ h =>
  stepUnder_extent_le Config.chip_conforms ((stepUnder_chip s).trans h)

/-! ## What changes memory (20_memory.md R37) -/

/-- Every instruction but ADD, MUL, LT and EQ keeps memory and the extent. -/
theorem execUnder_mem {c : Config} {i : Instr} {s t : State} (h : execUnder c i s = .next t)
    (hop : i.opcode ∉ [1, 2, 7, 8]) : t.mem = s.mem ∧ t.msize = s.msize := by
  rcases execUnder_eq_next h with ⟨r, rfl⟩ | ⟨hstore, -⟩ | ⟨-, nxt, -, rfl⟩ | ⟨-, d, -, rfl⟩ | ⟨-, v, nxt, -, rfl⟩ |
    ⟨-, base, nxt, -, rfl⟩ | ⟨-, rfl⟩
  case inr.inl => exact absurd hstore hop
  all_goals exact ⟨rfl, rfl⟩

/-- Outside `Running` only the resume of an IN changes memory (46_host_operations.md R123, R124). -/
theorem stepUnder_mem_of_not_running {c : Config} {s t : State} (h : stepUnder c s = .next t)
    (hr : s.state ≠ .running) (hmem : t.mem ≠ s.mem) : s.state = .suspendedForInput ∧ s.pin.ready = true := by
  rcases advance_eq_next h with ⟨hs, -⟩ | ⟨-, -, rfl⟩ | ⟨hs, hready, -⟩ | ⟨-, rfl⟩ | ⟨-, rfl⟩ | ⟨-, rfl⟩
  · exact absurd hs hr
  · exact absurd rfl hmem
  · exact ⟨hs, hready⟩
  · exact absurd rfl hmem
  · exact absurd rfl hmem
  · exact absurd rfl hmem

/-- Settles O44: a running core's memory changes in a store that completes, hence has legal modes. -/
theorem onlyStoresAndResumesChangeMemory : Obligations.OnlyStoresAndResumesChangeMemory := by
  intro s t h hmem
  rw [← stepUnder_chip] at h
  by_cases hr : s.state = .running
  · rcases stepUnder_decodes_of_running hr h with ⟨r, rfl⟩ | ⟨i, hi, hexec⟩
    · exact absurd rfl hmem
    · exact .inl ⟨hr, i, hi, by_contra fun hop => hmem (execUnder_mem hexec hop).1⟩
  · exact .inr (stepUnder_mem_of_not_running h hr hmem)

/-! ## Frames of the instructions (20_memory.md R33, R37) -/

/-- The address of a write operand that raises no fault (40_cycle_and_operands.md R83). -/
theorem toNat_of_writeTarget_chip {s : State} {k : Nat} (hpc : 0 ≤ s.pc.toInt) (hk : k < 2 ^ 63) {m : Mode} {d : Word}
    (h : writeTarget Config.chip s k m = .ok d) : d.toNat = operandAddress s k m := by
  have hdesc := writeTarget_chip hpc hk m
  split at hdesc
  · rw [hdesc] at h; cases h
  · obtain ⟨d', hd', hnonneg, hsum⟩ := hdesc
    obtain rfl : d' = d := by simpa [hd'] using h
    unfold operandAddress
    rw [← hsum, toInt_eq_toNat hnonneg, Int.toNat_natCast]

/-- The shape of ADD, MUL, LT and EQ: what completes without a fault writes `pc` and one cell only. -/
theorem computeAndStore_frame {op : Word → Word → Check Word} {a b dst : Mode} {s t : State} (hpc : 0 ≤ s.pc.toInt)
    (h : computeAndStore Config.chip op a b dst s = .next t) (ht : t.state ≠ .faulted) :
    t.rb = s.rb ∧ t.state = s.state ∧ t.pin = s.pin ∧ t.pout = s.pout ∧ t.fault = s.fault ∧
    ∀ x : Nat, x ≠ operandAddress s 3 dst → Memory.read t.mem x = Memory.read s.mem x := by
  rcases computeAndStore_eq_next h with ⟨r, rfl⟩ | ⟨-, -, d, v, nxt, -, -, hd, -, -, -, rfl⟩
  · exact absurd rfl ht
  · refine ⟨rfl, rfl, rfl, rfl, rfl, fun x hx => Memory.read_write_ne s.mem v ?_⟩
    rwa [toNat_of_writeTarget_chip hpc (by omega) hd]

/-- Settles O36: the four instructions share one shape. -/
theorem storingInstructionsFrame : Obligations.StoringInstructionsFrame := by
  rintro i a b dst s t (rfl | rfl | rfl | rfl) hpc - h ht <;> exact computeAndStore_frame hpc h ht

/-- Settles O37: the effect of each instruction that stores nothing is a list of named updates. -/
theorem otherInstructionsFrame : Obligations.OtherInstructionsFrame := by
  intro i s t hop _ h ht
  rw [← execUnder_chip] at h
  have hstore : i.opcode ∉ [1, 2, 7, 8] := by simp at hop ⊢; omega
  obtain ⟨hmem, hmsize⟩ := execUnder_mem h hstore
  refine ⟨fun x => by rw [hmem], hmsize, ?_⟩
  rcases execUnder_eq_next h with ⟨r, rfl⟩ | ⟨hop, -⟩ | ⟨hop, nxt, -, rfl⟩ | ⟨hop, d, -, rfl⟩ |
    ⟨hop, v, nxt, -, rfl⟩ | ⟨hop, base, nxt, -, rfl⟩ | ⟨hop, rfl⟩
  · exact absurd rfl ht
  · exact absurd hop hstore
  · obtain hop | hop : i.opcode = 5 ∨ i.opcode = 6 := by simpa using hop
    · simp [hop]
    · simp [hop]
  · simp [hop]
  · simp [hop]
  · simp [hop]
  · simp [hop]

/-! ## A store is seen by the next fetch (20_memory.md R43) -/

/-- A running core runs the instruction its cell decodes to (40_cycle_and_operands.md R80). -/
theorem step_of_decode {s : State} {i : Instr} (hr : s.state = .running) (hi : decode (memRead s s.pc) = .ok i) :
    step s = exec i s := by
  obtain ⟨hsel, -⟩ := decode_eq_ok.mp hi
  simp only [step, advance, hr, executeNext, hsel]

/-- A program counter that is an address does not wrap when a small offset is added. -/
theorem toNat_pc_add {s : State} {k : Nat} (hpc : 0 ≤ s.pc.toInt) (hk : k < 2 ^ 63) :
    (s.pc + BitVec.ofNat 64 k).toNat = s.pc.toNat + k := by
  have hlt := toNat_lt_of_nonneg hpc
  unfold addrCount at hlt
  rw [BitVec.toNat_add, BitVec.toNat_ofNat, Nat.mod_eq_of_lt (by omega : k < 2 ^ 64), Nat.mod_eq_of_lt (by omega)]

/-- No fault of the exact description: none of its three parts has one (60_exceptions.md R148). -/
theorem instrFault_eq_none {s : State} {i : Instr} : instrFault s i = none ↔
    firstOperandFault s 1 i.operands = none ∧ ownFault s i = none ∧ successorFault s i = none := by
  simp [instrFault, Option.or_eq_none_iff]

theorem inI64_of_rangeFault {x : Int} (h : rangeFault x = none) : InI64 x :=
  by_contra fun hn => nomatch (rangeFault_of_not_inI64 hn).symm.trans h

/-- A read operand without a fault answers its value (40_cycle_and_operands.md R83). -/
theorem readOperand_of_no_fault {s : State} {k : Nat} {m : Mode} (hpc : 0 ≤ s.pc.toInt) (hk : k < 2 ^ 63)
    (h : operandFault s k .read m = none) : readOperand Config.chip s k m = .ok (operandValue s k m) := by
  rw [readOperand_chip hpc hk, h]

/-- A write operand without a fault answers its address (40_cycle_and_operands.md R83). -/
theorem writeTarget_of_no_fault {s : State} {k : Nat} {m : Mode} (hpc : 0 ≤ s.pc.toInt) (hk : k < 2 ^ 63)
    (h : operandFault s k .write m = none) :
    ∃ d : Word, writeTarget Config.chip s k m = .ok d ∧ 0 ≤ d.toInt ∧ d.toNat = operandAddress s k m := by
  have hdesc := writeTarget_chip hpc hk m
  rw [h] at hdesc
  obtain ⟨d, hd, hnonneg, -⟩ := hdesc
  exact ⟨d, hd, hnonneg, toNat_of_writeTarget_chip hpc hk hd⟩

/-- A successor address in range (40_cycle_and_operands.md R79). -/
theorem successor_of_inI64 {s : State} {k : Nat} (hpc : 0 ≤ s.pc.toInt) (hk : k < 2 ^ 63)
    (h : InI64 (s.pc.toInt + k)) : successor Config.chip s k = .ok (s.pc + BitVec.ofNat 64 k) := by
  rw [successor_chip hpc hk, rangeFault_of_inI64 h]

/-- What ADD, MUL, LT and EQ leave when they complete with the result `v` (41_arithmetic.md R90). -/
def State.completeStore (s : State) (dst : Mode) (v : Word) : State :=
  (s.storeCell Config.chip (operandAddress s 3 dst) v).setPc (s.pc + 4#64)

/-- The shape of ADD, MUL, LT and EQ without a fault: the result is stored and `pc` moves by 4. -/
theorem computeAndStore_of_no_fault {op : Word → Word → Check Word} {a b dst : Mode} {v : Word} {s : State}
    (hpc : 0 ≤ s.pc.toInt) (hops : firstOperandFault s 1 [(.read, a), (.read, b), (.write, dst)] = none)
    (hop : op (operandValue s 1 a) (operandValue s 2 b) = .ok v) (hnext : InI64 (s.pc.toInt + (4 : Nat))) :
    computeAndStore Config.chip op a b dst s = .next (s.completeStore dst v) := by
  simp only [firstOperandFault, Option.or_eq_none_iff] at hops
  obtain ⟨ha, hb, hdst, -⟩ := hops
  obtain ⟨d, hd, hnonneg, haddr⟩ := writeTarget_of_no_fault hpc (by omega) hdst
  unfold computeAndStore State.completeStore
  rw [readOperand_of_no_fault hpc (by omega) ha, readOperand_of_no_fault hpc (by omega) hb, hd,
    successor_of_inI64 hpc (by omega) hnext]
  simp only [Check.ok_bind, hop, Check.pure_eq, settle_ok]
  rw [commitStore_of_lt (toNat_lt_of_nonneg hnonneg), haddr]

section
variable {a b dst : Mode} {s : State} (hpc : 0 ≤ s.pc.toInt)
include hpc

theorem exec_add_of_no_fault (h : instrFault s (.add a b dst) = none) : exec (.add a b dst) s =
    .next (s.completeStore dst (Word.ofInt ((operandValue s 1 a).toInt + (operandValue s 2 b).toInt))) := by
  obtain ⟨hops, hown, hsucc⟩ := instrFault_eq_none.mp h
  exact computeAndStore_of_no_fault hpc hops (narrow_of_inI64 _ (inI64_of_rangeFault hown)) (inI64_of_rangeFault hsucc)

theorem exec_mul_of_no_fault (h : instrFault s (.mul a b dst) = none) : exec (.mul a b dst) s =
    .next (s.completeStore dst (Word.ofInt ((operandValue s 1 a).toInt * (operandValue s 2 b).toInt))) := by
  obtain ⟨hops, hown, hsucc⟩ := instrFault_eq_none.mp h
  exact computeAndStore_of_no_fault hpc hops (narrow_of_inI64 _ (inI64_of_rangeFault hown)) (inI64_of_rangeFault hsucc)

theorem exec_lt_of_no_fault (h : instrFault s (.lt a b dst) = none) : exec (.lt a b dst) s =
    .next (s.completeStore dst
      (if (operandValue s 1 a).toInt < (operandValue s 2 b).toInt then 1#64 else 0#64)) := by
  obtain ⟨hops, -, hsucc⟩ := instrFault_eq_none.mp h
  exact computeAndStore_of_no_fault hpc hops (by simp [lessResult, truthWord, isLess]) (inI64_of_rangeFault hsucc)

theorem exec_eq_of_no_fault (h : instrFault s (.eq a b dst) = none) : exec (.eq a b dst) s =
    .next (s.completeStore dst (if operandValue s 1 a = operandValue s 2 b then 1#64 else 0#64)) := by
  obtain ⟨hops, -, hsucc⟩ := instrFault_eq_none.mp h
  exact computeAndStore_of_no_fault hpc hops (by simp [equalResult, truthWord, isEqual]) (inI64_of_rangeFault hsucc)

end

/-- The resume of an IN whose successor is in range: the value at the recorded address, `pc` moved by 2, the slot
cleared (46_host_operations.md R124). -/
theorem resumeInput_of_inI64 {s : State} (hpc : 0 ≤ s.pc.toInt) (hdst : 0 ≤ s.pin.dst.toInt)
    (hnext : InI64 (s.pc.toInt + (2 : Nat))) : resumeInput Config.chip s =
      .next ((((s.storeCell Config.chip s.pin.dst.toNat s.pin.value).setPc (s.pc + 2#64)).clearInput).setRun .running) := by
  unfold resumeInput
  rw [successor_of_inI64 hpc (by omega) hnext, memWrite_chip hdst]
  rfl

/-- A core at whose program counter a word was just stored runs the instruction the word decodes to. -/
theorem step_of_stored {s t : State} {n : Nat} {v : Word} {i : Instr} (hwf : Memory.wf s.mem = true)
    (hr : t.state = .running) (hmem : t.mem = Memory.write s.mem n v) (hpc : t.pc.toNat = n) (hi : decode v = .ok i) :
    step t = exec i t := by
  refine step_of_decode hr ?_
  rw [memRead, hmem, hpc, Memory.read_write_same hwf, hi]

/-- Settles O47: the four stores and the resume leave the word where `pc` now points, and the next step reads it there. -/
theorem storesAreSeenByTheNextFetch : Obligations.StoresAreSeenByTheNextFetch := by
  constructor
  · intro stored a b dst v s i hinv hr hstored hdecode hfault haddr hi
    obtain ⟨-, ⟨hpc, -⟩, hwf, -⟩ := hinv
    have hexec : exec stored s = .next (s.completeStore dst v) := by
      rcases hstored with ⟨rfl, rfl⟩ | ⟨rfl, rfl⟩ | ⟨rfl, rfl⟩ | ⟨rfl, rfl⟩
      · exact exec_add_of_no_fault hpc hfault
      · exact exec_mul_of_no_fault hpc hfault
      · exact exec_lt_of_no_fault hpc hfault
      · exact exec_eq_of_no_fault hpc hfault
    have hpc' : (s.pc + 4#64).toNat = s.pc.toNat + 4 := toNat_pc_add hpc (by omega)
    exact ⟨_, (step_of_decode hr hdecode).trans hexec, hpc', step_of_stored hwf hr rfl (hpc'.trans haddr.symm) hi⟩
  · intro s i hinv hs hready hmax hdst hi
    obtain ⟨⟨hin, -⟩, ⟨hpc, hdstAddr, -⟩, hwf, -⟩ := hinv
    have hnext : InI64 (s.pc.toInt + (2 : Nat)) := ⟨by unfold i64Min; omega, hmax⟩
    have hstep : step s = resumeInput Config.chip s := by simp [step, advance, hs, hready]
    have hpc' : (s.pc + 2#64).toNat = s.pc.toNat + 2 := toNat_pc_add hpc (by omega)
    exact ⟨_, hstep.trans (resumeInput_of_inI64 hpc (hdstAddr (hin.mp hs)) hnext), hpc',
      step_of_stored hwf rfl rfl (hpc'.trans hdst.symm) hi⟩

end Sys2Proof.Machine
end

section
/-! PROOFS. The statements of 30_encoding.md: which words are which instructions, the errors of the decoder, the round
trips of the encoder, and the fault a step takes on a word that is no legal instruction. -/

namespace Sys2Proof

open Machine

/-! ## The instruction a word selects (30_encoding.md R51, R53, R56) -/

/-- Settles O1: each word decodes by evaluation. -/
theorem knownWordsDecode : Obligations.KnownWordsDecode := by
  unfold Obligations.KnownWordsDecode
  decide

theorem opcodeOf_of_nonneg {iw : Word} (h : 0 ≤ iw.toInt) : opcodeOf iw = iw.toInt % 100 :=
  Int.tmod_eq_emod_of_nonneg h

theorem modeOf_of_nonneg {iw : Word} (h : 0 ≤ iw.toInt) (k : Nat) :
    modeOf iw (k + 1) = Mode.ofDigit (iw.toNat / 10 ^ (k + 2) % 10) := by
  rw [modeOf, toInt_eq_toNat h, Int.toNat_natCast, decimalDigit]

/-- What holds of every element of a list, by its place, holds of the first and, one place on, of the rest. -/
theorem forall_getElem?_cons {α : Type} {P : Nat → α → Prop} {a : α} {l : List α} :
    (∀ k x, (a :: l)[k]? = some x → P k x) ↔ P 0 a ∧ ∀ k x, l[k]? = some x → P (k + 1) x := by
  refine ⟨fun h => ⟨h 0 a rfl, fun k x => h (k + 1) x⟩, fun ⟨hfirst, hrest⟩ => ?_⟩
  rintro (_ | k) x hx
  · cases hx
    exact hfirst
  · exact hrest k x hx

/-- The instruction of an opcode is the one of that opcode with the given modes, operand by operand from 0 on. -/
theorem Instr.ofOpcode_opcode_eq_some {i : Instr} {mode : Nat → Mode} :
    Instr.ofOpcode i.opcode (mode 0) (mode 1) (mode 2) = some i ↔
      ∀ (k : Nat) (o : Role × Mode), i.operands[k]? = some o → o.2 = mode k := by
  cases i <;>
    simp [-Prod.forall, Instr.ofOpcode, Instr.opcode, Instr.operands, forall_getElem?_cons, eq_comm (a := mode _)]

/-- A word selects an instruction exactly when it is not negative and has the instruction's opcode and mode digits. -/
theorem selectInstr_eq_some {iw : Word} {i : Instr} : selectInstr iw = some i ↔
    0 ≤ iw.toInt ∧ iw.toInt % 100 = i.opcode ∧
      ∀ (k : Nat) (o : Role × Mode), i.operands[k]? = some o → o.2 = Mode.ofDigit (iw.toNat / 10 ^ (k + 2) % 10) := by
  have hmodes (h0 : 0 ≤ iw.toInt) (hop : opcodeOf iw = i.opcode) : selectInstr iw = some i ↔
      ∀ (k : Nat) (o : Role × Mode), i.operands[k]? = some o → o.2 = Mode.ofDigit (iw.toNat / 10 ^ (k + 2) % 10) := by
    simp only [← modeOf_of_nonneg h0]
    rw [selectInstr, hop, Instr.ofOpcode_opcode_eq_some (mode := fun k => modeOf iw (k + 1))]
  constructor
  · intro h
    have h0 := nonneg_of_selectInstr h
    have hop := opcodeOf_selectInstr h
    exact ⟨h0, (opcodeOf_of_nonneg h0).symm.trans hop, (hmodes h0 hop).mp h⟩
  · rintro ⟨h0, hop, h⟩
    exact (hmodes h0 ((opcodeOf_of_nonneg h0).trans hop)).mpr h

/-- A word that decodes gives a legal instruction with the word's own opcode and mode digits (30_encoding.md R51). -/
theorem fields_of_decode {iw : Word} {i : Instr} (h : decode iw = .ok i) :
    i.wellFormed = true ∧ 0 ≤ iw.toInt ∧ iw.toInt % 100 = i.opcode ∧
      ∀ (k : Nat) (o : Role × Mode), i.operands[k]? = some o → o.2.digit = iw.toNat / 10 ^ (k + 2) % 10 := by
  obtain ⟨hsel, hlegal⟩ := decode_eq_ok.mp h
  obtain ⟨h0, hop, hmodes⟩ := selectInstr_eq_some.mp hsel
  exact ⟨(wellFormed_iff i).mpr hlegal, h0, hop, fun k o ho => by rw [hmodes k o ho, Mode.digit_ofDigit]⟩

/-- Settles O7: the fields of the selected instruction and, when the word decodes, of the decoded one. -/
theorem decodedFieldsAreTheWords : Obligations.DecodedFieldsAreTheWords :=
  ⟨fun _ _ h => selectInstr_eq_some.mp h, fun _ _ h => fields_of_decode h⟩

/-! ## The errors of the decoder (30_encoding.md R57 to R61) -/

/-- The decoder answers an error exactly when the opcode is undefined or an operand of the selected instruction is wrong. -/
theorem decode_eq_error {iw : Word} {e : DecodeError} : decode iw = .error e ↔
    (selectInstr iw = none ∧ e = .invalidOpcode (opcodeOf iw)) ∨
      ∃ i, selectInstr iw = some i ∧ firstOperandError i.operands = some e := by
  unfold decode
  cases selectInstr iw with
  | none => simp [eq_comm]
  | some i => cases h : firstOperandError i.operands <;> simp [h]

/-- The error reported is that of the first operand that has one. -/
theorem firstOperandError_eq_some {l : List (Role × Mode)} {e : DecodeError} : firstOperandError l = some e ↔
    ∃ (k : Nat) (o : Role × Mode), l[k]? = some o ∧ operandError o = some e ∧
      ∀ (j : Nat) (p : Role × Mode), j < k → l[j]? = some p → operandError p = none := by
  induction l with
  | nil => simp [firstOperandError]
  | cons o rest ih =>
    rw [firstOperandError]
    cases ho : operandError o with
    | some e' =>
      constructor
      · intro h
        exact ⟨0, o, rfl, ho.trans h, by simp⟩
      · rintro ⟨_ | k, p, hp, he, hbefore⟩
        · obtain rfl : o = p := by simpa using hp
          exact ho.symm.trans he
        · exact nomatch ho.symm.trans (hbefore 0 o (by omega) rfl)
    | none =>
      rw [Option.none_or, ih]
      constructor
      · rintro ⟨k, p, hp, he, hbefore⟩
        refine ⟨k + 1, p, hp, he, ?_⟩
        rintro (_ | j) q hj hq
        · obtain rfl : o = q := by simpa using hq
          exact ho
        · exact hbefore j q (by omega) hq
      · rintro ⟨_ | k, p, hp, he, hbefore⟩
        · obtain rfl : o = p := by simpa using hp
          exact nomatch ho.symm.trans he
        · exact ⟨k, p, hp, he, fun j q hj hq => hbefore (j + 1) q (by omega) hq⟩

/-- No operand is reported as an invalid opcode. -/
theorem operandError_ne_invalidOpcode (o : Role × Mode) (op : Int) : operandError o ≠ some (.invalidOpcode op) := by
  obtain ⟨role, m⟩ := o
  cases m <;> cases role <;> simp [operandError]

/-- The decoder reports an invalid opcode exactly when the opcode selects nothing. -/
theorem decode_eq_invalidOpcode {iw : Word} {op : Int} :
    decode iw = .error (.invalidOpcode op) ↔ selectInstr iw = none ∧ op = opcodeOf iw := by
  rw [decode_eq_error, DecodeError.invalidOpcode.injEq, or_iff_left]
  rintro ⟨i, -, h⟩
  obtain ⟨-, o, -, ho, -⟩ := firstOperandError_eq_some.mp h
  exact operandError_ne_invalidOpcode o op ho

/-- Settles O6: the opcode refused is one that selects nothing. -/
theorem undefinedOpcodesAreRefused : Obligations.UndefinedOpcodesAreRefused := by
  intro iw op
  rw [decode_eq_invalidOpcode, selectInstr_eq_none, and_comm]
  exact and_congr_right fun h => by rw [h]

/-- Settles O5: a negative word selects nothing, so its opcode is refused. -/
theorem opcodeIsTheTruncatedRemainder : Obligations.OpcodeIsTheTruncatedRemainder := by
  refine fun iw => ⟨rfl, fun h0 => ?_, fun hneg => ?_⟩
  · rw [opcodeOf_of_nonneg h0, toInt_eq_toNat h0]
    unfold decimalDigit
    omega
  · have hnone : selectInstr iw = none :=
      Option.eq_none_iff_forall_ne_some.mpr fun i h => absurd (nonneg_of_selectInstr h) (by omega)
    obtain ⟨hlow, hhigh⟩ : -99 ≤ opcodeOf iw ∧ opcodeOf iw ≤ 0 := by
      rw [opcodeOf, Int.tmod_eq_emod]
      split <;> omega
    exact ⟨hlow, hhigh, decode_eq_invalidOpcode.mpr ⟨hnone, rfl⟩⟩

/-! ## The errors of operands (30_encoding.md R58, R59, R65) -/

section
variable {role : Role} {d : Nat}

theorem operandError_ofDigit_eq_none : operandError (role, Mode.ofDigit d) = none ↔ ¬ WrongDigit role d := by
  match d with
  | 0 | 1 | 2 => cases role <;> simp [Mode.ofDigit, operandError]
  | d + 3 => simp [Mode.ofDigit, operandError]

theorem operandError_ofDigit_eq_invalidMode {reported : Nat} :
    operandError (role, Mode.ofDigit d) = some (.invalidMode reported) ↔ reported = d ∧ 3 ≤ d := by
  match d with
  | 0 | 1 | 2 => cases role <;> simp [Mode.ofDigit, operandError]
  | d + 3 => simp [Mode.ofDigit, operandError, eq_comm]

theorem operandError_ofDigit_eq_invalidWriteTarget :
    operandError (role, Mode.ofDigit d) = some .invalidWriteTarget ↔ role = .write ∧ d = 1 := by
  match d with
  | 0 | 1 | 2 => cases role <;> simp [Mode.ofDigit, operandError]
  | d + 3 => simp [Mode.ofDigit, operandError]

end

/-- The roles listed for a word's opcode are those of the instruction it selects (30_encoding.md R52). -/
theorem rolesOf_opcodeOf (iw : Word) :
    rolesOf (opcodeOf iw) = (selectInstr iw).map fun i => i.operands.map Prod.fst := by
  cases h : selectInstr iw with
  | none =>
    obtain ⟨hlow, hhalt⟩ := selectInstr_eq_none.mp h
    unfold rolesOf
    rw [if_neg (by omega), if_neg (by omega), if_neg (by omega), if_neg (by omega), if_neg hhalt]
    rfl
  | some i =>
    rw [opcodeOf_selectInstr h]
    cases i <;> rfl

/-- Operand `k` of a selected instruction: its role, and the mode of the word's digit. -/
theorem operands_getElem?_of_selectInstr {iw : Word} {i : Instr} (h : selectInstr iw = some i) {k : Nat}
    {o : Role × Mode} : i.operands[k]? = some o ↔
      ∃ role, (i.operands.map Prod.fst)[k]? = some role ∧ (role, Mode.ofDigit (iw.toNat / 10 ^ (k + 2) % 10)) = o := by
  obtain ⟨-, -, hmodes⟩ := selectInstr_eq_some.mp h
  rw [List.getElem?_map]
  cases hk : i.operands[k]? with
  | none => simp
  | some p => simp [← hmodes k p hk]

/-- The decoder reports an operand's error exactly when the first wrong operand of the word has that error. -/
theorem decode_eq_operandError {iw : Word} {e : DecodeError} (he : ∀ op, e ≠ .invalidOpcode op) :
    decode iw = .error e ↔ ∃ k role, FirstWrongOperand iw k role ∧
      operandError (role, Mode.ofDigit (iw.toNat / 10 ^ (k + 2) % 10)) = some e := by
  rw [decode_eq_error, or_iff_right fun h => he _ h.2]
  constructor
  · rintro ⟨i, hi, herr⟩
    have h0 := nonneg_of_selectInstr hi
    obtain ⟨k, o, ho, herr, hbefore⟩ := firstOperandError_eq_some.mp herr
    obtain ⟨role, hrole, rfl⟩ := (operands_getElem?_of_selectInstr hi).mp ho
    have hroles := rolesOf_opcodeOf iw
    rw [hi, opcodeOf_of_nonneg h0] at hroles
    refine ⟨k, role, ⟨h0, _, hroles, hrole, ?_, fun j earlier hj hearlier => ?_⟩, herr⟩
    · by_contra hright
      exact nomatch herr.symm.trans (operandError_ofDigit_eq_none.mpr hright)
    · exact operandError_ofDigit_eq_none.mp
        (hbefore j _ hj ((operands_getElem?_of_selectInstr hi).mpr ⟨earlier, hearlier, rfl⟩))
  · rintro ⟨k, role, ⟨h0, roles, hroles, hrole, -, hbefore⟩, herr⟩
    rw [← opcodeOf_of_nonneg h0, rolesOf_opcodeOf, Option.map_eq_some_iff] at hroles
    obtain ⟨i, hi, rfl⟩ := hroles
    have ho := (operands_getElem?_of_selectInstr hi).mpr ⟨role, hrole, rfl⟩
    refine ⟨i, hi, firstOperandError_eq_some.mpr ⟨k, _, ho, herr, fun j p hj hp => ?_⟩⟩
    obtain ⟨earlier, hearlier, rfl⟩ := (operands_getElem?_of_selectInstr hi).mp hp
    exact operandError_ofDigit_eq_none.mpr (hbefore j earlier hj hearlier)

/-- Settles O8: the first wrong operand's error is read off its role and digit. -/
theorem modeErrorsAreTheNamedOnes : Obligations.ModeErrorsAreTheNamedOnes := by
  constructor
  · intro iw d
    rw [decode_eq_operandError (by simp)]
    simp only [operandError_ofDigit_eq_invalidMode]
    refine exists_congr fun k => exists_congr fun role => and_congr_right fun _ => and_congr_right fun hd => ?_
    omega
  · intro iw
    rw [decode_eq_operandError (by simp)]
    simp only [operandError_ofDigit_eq_invalidWriteTarget]
    refine exists_congr fun k => ⟨?_, fun ⟨hfirst, hd⟩ => ⟨.write, hfirst, rfl, hd⟩⟩
    rintro ⟨role, hfirst, rfl, hd⟩
    exact ⟨hfirst, hd⟩

/-! ## The encoder (30_encoding.md R60, R66) -/

/-- An instruction is legal exactly when no operand has an error (30_encoding.md R67). -/
theorem wellFormed_iff_forall {i : Instr} : i.wellFormed = true ↔ ∀ o ∈ i.operands, operandError o = none := by
  rw [wellFormed_iff]
  induction i.operands with
  | nil => simp [firstOperandError]
  | cons o rest ih => rw [firstOperandError_cons, ih, List.forall_mem_cons]

/-- An operand of a legal instruction has a digit of at most 2, which selects its mode (30_encoding.md R54). -/
theorem digit_of_wellFormed {i : Instr} (h : i.wellFormed = true) {o : Role × Mode} (ho : o ∈ i.operands) :
    o.2.digit ≤ 2 ∧ Mode.ofDigit o.2.digit = o.2 := by
  have herr := wellFormed_iff_forall.mp h o ho
  obtain ⟨role, m⟩ := o
  cases role with
  | read => exact Mode.ofDigit_digit_read ((operandError_read m).mp herr)
  | write => exact Mode.ofDigit_digit_write ((operandError_write m).mp herr)

theorem length_operands_le (i : Instr) : i.operands.length ≤ 3 := by
  cases i <;> simp [Instr.operands]

theorem opcode_le (i : Instr) : i.opcode ≤ 99 := by
  cases i <;> simp [Instr.opcode]

/-- Mode digits up to 2 make at most the number 2..2: nine times it, and 2, is at most twice the power of ten. -/
theorem nine_mul_modeDigits_add_two_le {l : List (Role × Mode)} (h : ∀ o ∈ l, o.2.digit ≤ 2) :
    9 * modeDigits l + 2 ≤ 2 * 10 ^ l.length := by
  induction l with
  | nil => simp [modeDigits]
  | cons o rest ih =>
    obtain ⟨ho, hrest⟩ := List.forall_mem_cons.mp h
    have := ih hrest
    rw [modeDigits, List.length_cons, pow_succ]
    omega

theorem modeDigits_le {i : Instr} (h : i.wellFormed = true) : modeDigits i.operands ≤ 222 := by
  have hdigits := nine_mul_modeDigits_add_two_le fun o ho => (digit_of_wellFormed h ho).1
  have hpow : 10 ^ i.operands.length ≤ 10 ^ 3 := Nat.pow_le_pow_right (by omega) (length_operands_le i)
  omega

/-- The canonical word of a legal instruction is its formula (30_encoding.md R66). -/
theorem encode_toNat_of_wellFormed {i : Instr} (h : i.wellFormed = true) :
    (encode i).toNat = i.opcode + 100 * modeDigits i.operands :=
  encode_toNat (modeDigits_le h)

/-- Below any number put above them, the digits of `modeDigits` are the operands' own. -/
theorem digit_modeDigits_add {l : List (Role × Mode)} (h : ∀ o ∈ l, o.2.digit ≤ 9) (rest : Nat) {k : Nat}
    {o : Role × Mode} (hk : l[k]? = some o) : (modeDigits l + 10 ^ l.length * rest) / 10 ^ k % 10 = o.2.digit := by
  induction l generalizing k with
  | nil => cases hk
  | cons p l ih =>
    obtain ⟨hp, hl⟩ := List.forall_mem_cons.mp h
    have hsplit : modeDigits (p :: l) + 10 ^ (p :: l).length * rest =
        p.2.digit + 10 * (modeDigits l + 10 ^ l.length * rest) := by
      rw [modeDigits, List.length_cons, pow_succ]
      ring
    rw [hsplit]
    cases k with
    | zero =>
      obtain rfl : p = o := by simpa using hk
      omega
    | succ k =>
      have htail : (p.2.digit + 10 * (modeDigits l + 10 ^ l.length * rest)) / 10 =
          modeDigits l + 10 ^ l.length * rest := by omega
      rw [pow_succ', ← Nat.div_div_eq_div_mul, htail]
      exact ih hl hk

/-- The digits from the hundreds on are those of the number without its last two (30_encoding.md R51). -/
theorem div_pow_add_two (n k : Nat) : n / 10 ^ (k + 2) = n / 100 / 10 ^ k := by
  rw [Nat.div_div_eq_div_mul, pow_add, Nat.mul_comm, show (100 : Nat) = 10 ^ 2 from rfl]

/-- A word with the opcode and the mode digits of a legal instruction decodes to it. -/
theorem decode_ofNat {i : Instr} (hwf : i.wellFormed = true) {n : Nat} (hlt : i.opcode + 100 * n < 2 ^ 63)
    (hdigits : ∀ (k : Nat) (o : Role × Mode), i.operands[k]? = some o → n / 10 ^ k % 10 = o.2.digit) :
    decode (BitVec.ofNat 64 (i.opcode + 100 * n)) = .ok i := by
  have hop := opcode_le i
  have hint := toInt_ofNat_small hlt
  refine decode_eq_ok.mpr ⟨selectInstr_eq_some.mpr ⟨by omega, by omega, fun k o ho => ?_⟩, (wellFormed_iff i).mp hwf⟩
  have hdiv : (i.opcode + 100 * n) / 100 = n := by omega
  rw [BitVec.toNat_ofNat, Nat.mod_eq_of_lt (hlt.trans (by omega)), div_pow_add_two, hdiv, hdigits k o ho]
  exact (digit_of_wellFormed hwf (List.mem_of_getElem? ho)).2.symm

/-- Settles O4: the word has the instruction's opcode and mode digits, and nothing else is read. -/
theorem unreadDigitsAreIgnored : Obligations.UnreadDigitsAreIgnored := by
  intro i rest hwf hlt
  have hdigits : ∀ o ∈ i.operands, o.2.digit ≤ 9 := fun o ho =>
    (digit_of_wellFormed hwf ho).1.trans (by omega)
  have hword : (encode i).toNat + 10 ^ (2 + i.operands.length) * rest =
      i.opcode + 100 * (modeDigits i.operands + 10 ^ i.operands.length * rest) := by
    rw [encode_toNat_of_wellFormed hwf, pow_add]
    ring
  rw [hword] at hlt ⊢
  exact decode_ofNat hwf hlt fun k o ho => digit_modeDigits_add hdigits rest ho

/-- A canonical word decodes to its instruction (30_encoding.md R66): the number above its digits is 0. -/
theorem decode_encode {i : Instr} (hwf : i.wellFormed = true) : decode (encode i) = .ok i := by
  have hword := encode_toNat_of_wellFormed hwf
  have hop := opcode_le i
  have hdigits := modeDigits_le hwf
  simpa using unreadDigitsAreIgnored i 0 hwf (by omega)

/-- Operands whose digits are those of a number make its low digits. -/
theorem modeDigits_eq_mod {l : List (Role × Mode)} {n : Nat}
    (h : ∀ (k : Nat) (o : Role × Mode), l[k]? = some o → o.2.digit = n / 10 ^ k % 10) :
    modeDigits l = n % 10 ^ l.length := by
  induction l generalizing n with
  | nil => simp [modeDigits, Nat.mod_one]
  | cons o rest ih =>
    have ho : o.2.digit = n % 10 := by simpa using h 0 o rfl
    have hrest : modeDigits rest = n / 10 % 10 ^ rest.length := ih fun k p hp => by
      rw [h (k + 1) p hp, pow_succ', Nat.div_div_eq_div_mul]
    rw [modeDigits, ho, hrest, List.length_cons, pow_succ', Nat.mod_mul]

/-- Encoding a decoded instruction keeps the digits that were read, and no other (30_encoding.md R60, R66). -/
theorem encode_toNat_of_decode {iw : Word} {i : Instr} (h : decode iw = .ok i) :
    (encode i).toNat = iw.toNat % 10 ^ (2 + i.operands.length) := by
  obtain ⟨hwf, h0, hop, hdigits⟩ := fields_of_decode h
  have hmodes : modeDigits i.operands = iw.toNat / 100 % 10 ^ i.operands.length := modeDigits_eq_mod fun k o ho => by
    rw [hdigits k o ho, div_pow_add_two]
  rw [toInt_eq_toNat h0] at hop
  rw [encode_toNat_of_wellFormed hwf, hmodes, pow_add, Nat.mod_mul, show (10 : Nat) ^ 2 = 100 from rfl]
  omega

/-- A number has at most `2 + m` digits exactly when it has at most five and those above are 0. -/
theorem lt_pow_iff_digits_zero {n m : Nat} (hm : m ≤ 3) :
    n < 10 ^ (2 + m) ↔ n < 100000 ∧ ∀ k : Nat, m < k → k ≤ 3 → decimalDigit (k + 1) n = 0 := by
  unfold decimalDigit
  constructor
  · intro h
    have hfive : 10 ^ (2 + m) ≤ 10 ^ 5 := Nat.pow_le_pow_right (by omega) (by omega)
    refine ⟨by omega, fun k hk _ => ?_⟩
    have habove : 10 ^ (2 + m) ≤ 10 ^ (k + 1) := Nat.pow_le_pow_right (by omega) (by omega)
    rw [Nat.div_eq_of_lt (by omega)]
  · rintro ⟨h, hzero⟩
    have h1 := hzero 1
    have h2 := hzero 2
    have h3 := hzero 3
    interval_cases m <;> omega

/-- The mode digits as one number are the three digits of the formula (30_encoding.md R66). -/
theorem modeDigits_eq_modeDigitOf (i : Instr) :
    modeDigits i.operands = modeDigitOf i 1 + 10 * modeDigitOf i 2 + 100 * modeDigitOf i 3 := by
  cases i <;> simp [modeDigits, modeDigitOf, Instr.operands] <;> omega

/-- Settles O3: encoding a decoded word gives its low digits, which are the word when it has no others. -/
theorem encodeAndDecodeAgree : Obligations.EncodeAndDecodeAgree := by
  refine ⟨fun i hwf => ?_, fun i hwf => decode_encode hwf, fun iw i h => ?_⟩
  · rw [encode_toNat_of_wellFormed hwf, modeDigits_eq_modeDigitOf]
    omega
  · obtain ⟨-, h0, -⟩ := fields_of_decode h
    calc encode i = iw
        ↔ iw.toNat % 10 ^ (2 + i.operands.length) = iw.toNat := by rw [BitVec.toNat_eq, encode_toNat_of_decode h]
      _ ↔ iw.toNat < 10 ^ (2 + i.operands.length) := Nat.mod_eq_iff_lt (by positivity)
      _ ↔ _ := by rw [lt_pow_iff_digits_zero (length_operands_le i), toInt_eq_toNat h0]; simp

/-! ## The 99 canonical words (30_encoding.md R67) -/

def legalReads : List Mode := [.position, .immediate, .relative]

def legalWrites : List Mode := [.position, .relative]

/-- The legal instructions of format `F3RRW` under one opcode, in the order of the table (30_encoding.md R67). -/
def legalF3RRW (make : Mode → Mode → Mode → Instr) : List Instr :=
  legalWrites.flatMap fun dst => legalReads.flatMap fun b => legalReads.map fun a => make a b dst

/-- The legal instructions of format `F2RR` under one opcode, in the order of the table (30_encoding.md R67). -/
def legalF2RR (make : Mode → Mode → Instr) : List Instr :=
  legalReads.flatMap fun target => legalReads.map fun a => make a target

/-- The 99 legal instructions in the order of the table (30_encoding.md R67). -/
def legalInstrs : List Instr :=
  legalF3RRW .add ++ legalF3RRW .mul ++ legalWrites.map .inp ++ legalReads.map .out ++ legalF2RR .jt ++ legalF2RR .jf ++
    legalF3RRW .lt ++ legalF3RRW .eq ++ legalReads.map .arb ++ [.halt]

theorem mem_legalReads {m : Mode} : m ∈ legalReads ↔ m.legalRead = true := by
  cases m <;> simp [legalReads, Mode.legalRead]

theorem mem_legalWrites {m : Mode} : m ∈ legalWrites ↔ m.legalWrite = true := by
  cases m <;> simp [legalWrites, Mode.legalWrite]

theorem mem_legalInstrs {i : Instr} : i ∈ legalInstrs ↔ i.wellFormed = true := by
  cases i <;> simp [legalInstrs, legalF3RRW, legalF2RR, mem_legalReads, mem_legalWrites, Instr.wellFormed] <;> tauto

/-- The table, row by row, is the list of the legal instructions with their opcodes and canonical words. -/
theorem canonicalWords_eq : (canonicalWords.flatMap fun row => row.2.map fun n => (row.1, n)) =
    legalInstrs.map fun i => (i.opcode, (encode i).toNat) := by
  decide

/-- Settles O2: the table and the encoded legal instructions are one list. -/
theorem canonicalWordsAreTheListed : Obligations.CanonicalWordsAreTheListed := by
  refine ⟨by decide, by decide, fun op n => ?_⟩
  calc (∃ words, (op, words) ∈ canonicalWords ∧ n ∈ words)
      ↔ (op, n) ∈ canonicalWords.flatMap fun row => row.2.map fun n => (row.1, n) := by
        simp [List.mem_flatMap]
    _ ↔ _ := by simp [canonicalWords_eq, mem_legalInstrs]

end Sys2Proof

namespace Sys2Proof.Machine

/-! ## The step on a word that is no legal instruction (30_encoding.md R61, 60_exceptions.md R148) -/

/-- An instruction that raises a fault in its first check takes it (40_cycle_and_operands.md R81). -/
theorem settle_bind_of_error {α : Type} {s : State} {r : Raise} {x : Check α} (f : α → Check Outcome)
    (h : x = .error r) : settle s (x >>= f) = .next (s.takeFault r) := by
  rw [h, Check.error_bind, settle_error]

/-- The fault of a single operand is the first. -/
theorem firstOperandFault_singleton (s : State) (k : Nat) (o : Role × Mode) :
    firstOperandFault s k [o] = operandFault s k o.1 o.2 := Option.or_none

section
variable {s : State} (hpc : 0 ≤ s.pc.toInt) {r : Raise}
include hpc

theorem readOperand_of_fault {k : Nat} (hk : k < 2 ^ 63) {m : Mode} (h : operandFault s k .read m = some r) :
    readOperand Config.chip s k m = .error r := by
  rw [readOperand_chip hpc hk, h]

theorem writeTarget_of_fault {k : Nat} (hk : k < 2 ^ 63) {m : Mode} (h : operandFault s k .write m = some r) :
    writeTarget Config.chip s k m = .error r := by
  have hdesc := writeTarget_chip hpc hk m
  rwa [h] at hdesc

/-- ADD, MUL, LT and EQ take the first fault of their operands. -/
theorem computeAndStore_of_operandFault {op : Word → Word → Check Word} {a b dst : Mode}
    (h : firstOperandFault s 1 [(.read, a), (.read, b), (.write, dst)] = some r) :
    computeAndStore Config.chip op a b dst s = .next (s.takeFault r) := by
  simp only [firstOperandFault, Option.or_none, Option.or_eq_some_iff] at h
  unfold computeAndStore
  rcases h with ha | ⟨ha, hb | ⟨hb, hdst⟩⟩
  · exact settle_bind_of_error _ (readOperand_of_fault hpc (by omega) ha)
  · rw [readOperand_of_no_fault hpc (by omega) ha, Check.ok_bind]
    exact settle_bind_of_error _ (readOperand_of_fault hpc (by omega) hb)
  · rw [readOperand_of_no_fault hpc (by omega) ha, Check.ok_bind, readOperand_of_no_fault hpc (by omega) hb,
      Check.ok_bind]
    exact settle_bind_of_error _ (writeTarget_of_fault hpc (by omega) hdst)

/-- JT and JF take the first fault of their operands, whatever the condition (40_cycle_and_operands.md R84). -/
theorem jumpWhen_of_operandFault {taken : Word → Bool} {a target : Mode}
    (h : firstOperandFault s 1 [(.read, a), (.read, target)] = some r) :
    jumpWhen Config.chip taken a target s = .next (s.takeFault r) := by
  simp only [firstOperandFault, Option.or_none, Option.or_eq_some_iff] at h
  unfold jumpWhen
  rcases h with ha | ⟨ha, htarget⟩
  · exact settle_bind_of_error _ (readOperand_of_fault hpc (by omega) ha)
  · rw [readOperand_of_no_fault hpc (by omega) ha, Check.ok_bind]
    exact settle_bind_of_error _ (readOperand_of_fault hpc (by omega) htarget)

/-- An instruction whose operands have a fault takes the first of them (60_exceptions.md R148). -/
theorem exec_of_operandFault {i : Instr} (h : firstOperandFault s 1 i.operands = some r) :
    exec i s = .next (s.takeFault r) := by
  cases i with
  | add a b dst => exact computeAndStore_of_operandFault hpc h
  | mul a b dst => exact computeAndStore_of_operandFault hpc h
  | lt a b dst => exact computeAndStore_of_operandFault hpc h
  | eq a b dst => exact computeAndStore_of_operandFault hpc h
  | jt a target => exact jumpWhen_of_operandFault hpc h
  | jf a target => exact jumpWhen_of_operandFault hpc h
  | inp dst =>
    rw [Instr.operands, firstOperandFault_singleton] at h
    exact settle_bind_of_error _ (writeTarget_of_fault hpc (by omega) h)
  | out a =>
    rw [Instr.operands, firstOperandFault_singleton] at h
    exact settle_bind_of_error _ (readOperand_of_fault hpc (by omega) h)
  | arb a =>
    rw [Instr.operands, firstOperandFault_singleton] at h
    exact settle_bind_of_error _ (readOperand_of_fault hpc (by omega) h)
  | halt => cases h

end

/-- A wrong mode is a fault of its operand: at the mode digit, or after the operand word (60_exceptions.md R148). -/
theorem operandFault_of_operandError {o : Role × Mode} {e : DecodeError} (h : operandError o = some e) (s : State)
    (k : Nat) : ∃ r, operandFault s k o.1 o.2 = some r := by
  obtain ⟨role, m⟩ := o
  cases m with
  | undefined d => exact ⟨_, rfl⟩
  | immediate =>
    cases role with
    | read => cases h
    | write => cases hr : rangeFault (s.pc.toInt + k) <;> simp [operandFault, hr]
  | position => cases role <;> cases h
  | relative => cases role <;> cases h

/-- Operands of which one has a wrong mode have a first fault: that operand's or an earlier one's. -/
theorem firstOperandFault_of_error {l : List (Role × Mode)} {e : DecodeError} (h : firstOperandError l = some e)
    (s : State) (k : Nat) : ∃ r, firstOperandFault s k l = some r := by
  induction l generalizing k with
  | nil => cases h
  | cons o rest ih =>
    rw [firstOperandFault]
    cases hfault : operandFault s k o.1 o.2 with
    | some r => exact ⟨r, rfl⟩
    | none =>
      cases ho : operandError o with
      | some e' =>
        obtain ⟨r, hr⟩ := operandFault_of_operandError ho s k
        exact nomatch hfault.symm.trans hr
      | none =>
        rw [firstOperandError, ho] at h
        exact ih h (k + 1)

/-- A running core runs the instruction its cell selects, well-formed or not (40_cycle_and_operands.md R72). -/
theorem step_of_selectInstr {s : State} {i : Instr} (hr : s.state = .running)
    (hi : selectInstr (memRead s s.pc) = some i) : step s = exec i s := by
  simp only [step, advance, hr, executeNext, hi]

/-- A running core whose cell selects no instruction takes `InvalidOpcode` (60_exceptions.md R142). -/
theorem step_of_selectInstr_none {s : State} (hr : s.state = .running) (hnone : selectInstr (memRead s s.pc) = none) :
    step s = .next (s.takeFault { cause := .invalidOpcode, info := Word.ofInt (opcodeOf (memRead s s.pc)) }) := by
  simp only [step, advance, hr, executeNext, hnone]

/-- Settles O18: an undefined opcode faults at once, and a wrong mode when the operands are resolved in order. -/
theorem stepFaultsOnIllegalWords : Obligations.StepFaultsOnIllegalWords := by
  intro s e hr hpc h
  rcases decode_eq_error.mp h with ⟨hnone, rfl⟩ | ⟨i, hi, herr⟩
  · exact ⟨_, .inl ⟨_, rfl, rfl⟩, step_of_selectInstr_none hr hnone⟩
  · obtain ⟨r, hfault⟩ := firstOperandFault_of_error herr s 1
    have hill : i.wellFormed = false := by
      rw [← Bool.not_eq_true, wellFormed_iff, herr]
      simp
    have hfirst : instrFault s i = some r := by rw [instrFault, hfault, Option.some_or]
    exact ⟨r, .inr ⟨i, hi, hill, hfirst⟩, (step_of_selectInstr hr hi).trans (exec_of_operandFault hpc hfault)⟩

end Sys2Proof.Machine
end

section
/-! PROOFS. The statements of 40_cycle_and_operands.md: what a running core executes, what its faults leave alone, and the
relative mode. -/

namespace Sys2Proof.Machine

/-! ## A running core runs the instruction of its cell (40_cycle_and_operands.md R70 to R72) -/

/-- Settles O16: a word that decodes selects the instruction it decodes to, and the step runs the selected one. -/
theorem stepRunsTheDecodedInstruction : Obligations.StepRunsTheDecodedInstruction := fun _ _ hr =>
  ⟨step_of_decode hr, step_of_selectInstr hr⟩

/-! ## Faults are precise (40_cycle_and_operands.md R81, 60_exceptions.md R150) -/

/-- An instruction of a running core that ends in `Faulted` has taken a fault: no effect it commits enters that run
state. -/
theorem execUnder_faults {c : Config} {i : Instr} {s t : State} (hr : s.state = .running)
    (h : execUnder c i s = .next t) (ht : t.state = .faulted) : ∃ r, t = s.takeFault r := by
  have hne : s.state ≠ .faulted := by simp [hr]
  rcases execUnder_eq_next h with hfault | ⟨-, d, v, nxt, -, -, -, rfl⟩ | ⟨-, nxt, -, rfl⟩ | ⟨-, d, -, rfl⟩ |
    ⟨-, v, nxt, -, rfl⟩ | ⟨-, base, nxt, -, rfl⟩ | ⟨-, rfl⟩
  · exact hfault
  · exact absurd ht hne
  · exact absurd ht hne
  · exact nomatch ht
  · exact nomatch ht
  · exact absurd ht hne
  · exact nomatch ht

/-- A step of a running core that ends in `Faulted` has taken a fault in the state before it. -/
theorem stepUnder_faults_of_running {c : Config} {s t : State} (hr : s.state = .running)
    (h : stepUnder c s = .next t) (ht : t.state = .faulted) : ∃ r, t = s.takeFault r := by
  rcases stepUnder_eq_next_of_running hr h with hfault | ⟨i, -, hexec⟩
  · exact hfault
  · exact execUnder_faults hr hexec ht

/-- Settles O23: the only way into `Faulted` is `takeFault` of the state before the step, whatever was raised. -/
theorem faultsArePrecise : Obligations.FaultsArePrecise := by
  intro s t hr h ht
  rw [← stepUnder_chip] at h
  obtain ⟨r, rfl⟩ := stepUnder_faults_of_running hr h ht
  rfl

/-! ## Relative mode (40_cycle_and_operands.md R76) -/

section
variable {c : Config} {s : State} {w : Word}

/-- A relative read operand whose sum is an address is the cell there. -/
theorem resolveRead_relative_of_nonneg {ea : Word} (hsum : add64 c.overflowPolicy s.rb w = .ok ea)
    (h : 0 ≤ ea.toInt) : resolveRead c s .relative w = .ok (Memory.read s.mem ea.toNat) := by
  rw [resolveRead, relativeAddress, hsum, Check.ok_bind, checkAddress_of_nonneg h]
  rfl

/-- A relative read operand whose sum is negative raises `AddressError` with the sum. -/
theorem resolveRead_relative_of_neg {ea : Word} (hsum : add64 c.overflowPolicy s.rb w = .ok ea) (h : ea.toInt < 0) :
    resolveRead c s .relative w = .error { cause := .addressError, info := ea } := by
  rw [resolveRead, relativeAddress, hsum, Check.ok_bind, checkAddress_of_neg h]
  rfl

/-- A relative read operand raises the fault of the sum. -/
theorem resolveRead_relative_of_error {r : Raise} (hsum : add64 c.overflowPolicy s.rb w = .error r) :
    resolveRead c s .relative w = .error r := by
  rw [resolveRead, relativeAddress, hsum]
  rfl

end

/-- Settles O40: the operand follows the sum of `add64`, and a sum that is an address is exact under every policy. -/
theorem relativeModeDereferencesTheSum : Obligations.RelativeModeDereferencesTheSum := by
  intro c s w
  refine ⟨fun hlow hhigh => ?_, fun ea hsum => ⟨resolveRead_relative_of_neg hsum, resolveRead_relative_of_nonneg hsum⟩,
    fun r hsum => resolveRead_relative_of_error hsum⟩
  have hin : InI64 (s.rb.toInt + w.toInt) := ⟨le_trans (by decide) hlow, hhigh⟩
  have hsum : add64 c.overflowPolicy s.rb w = .ok (Word.ofInt (s.rb.toInt + w.toInt)) := narrow_of_inI64 _ hin
  rw [← toNat_ofInt hin (by omega)]
  exact resolveRead_relative_of_nonneg hsum (by rwa [toInt_ofInt hin])

end Sys2Proof.Machine
end

section
/-! PROOFS. The statements of 41_arithmetic.md: what ADD and MUL store, the 64-bit operations under each overflow
policy, and that a step free of `ArithmeticOverflow` does not depend on the policy. -/

namespace Sys2Proof.Machine

/-! ## ADD and MUL without a fault (41_arithmetic.md R90, R91) -/

/-- What a completed store leaves, element by element (20_memory.md R33, R34). -/
theorem State.completeStore_eq (s : State) (dst : Mode) (v : Word) : s.completeStore dst v = { s with
    mem := Memory.write s.mem (operandAddress s 3 dst) v
    msize := extentAfter s (operandAddress s 3 dst)
    pc := s.pc + 4#64 } := rfl

/-- Settles O27: without a fault ADD is the completed store of the exact sum. -/
theorem addStoresTheSum : Obligations.AddStoresTheSum := by
  intro a b dst s hpc h
  rw [exec_add_of_no_fault hpc h, State.completeStore_eq]

/-- Settles O28: without a fault MUL is the completed store of the exact product. -/
theorem mulStoresTheProduct : Obligations.MulStoresTheProduct := by
  intro a b dst s hpc h
  rw [exec_mul_of_no_fault hpc h, State.completeStore_eq]

/-! ## The 64-bit operations under each policy (41_arithmetic.md R92, R93) -/

section
variable {x : Int}

theorem exists_narrow_of_inI64 (h : InI64 x) (p : OverflowPolicy) : ∃ w, narrow p x = .ok w ∧ w.toInt = x :=
  ⟨_, narrow_of_inI64 p h, toInt_ofInt h⟩

/-- `Wrap`: the wrapped value is in range again, whatever the exact one is. -/
theorem exists_narrow_wrap_of_not_inI64 (h : ¬ InI64 x) :
    ∃ w, narrow .wrap x = .ok w ∧ w.toInt = (x + 2 ^ 63) % 2 ^ 64 - 2 ^ 63 := by
  have hin : InI64 ((x + 2 ^ 63) % 2 ^ 64 - 2 ^ 63) := by
    unfold InI64 i64Min i64Max
    omega
  exact ⟨_, if_neg h, toInt_ofInt hin⟩

theorem exists_narrow_saturate_of_not_inI64 (h : ¬ InI64 x) :
    ∃ w, narrow .saturate x = .ok w ∧ w.toInt = if i64Max < x then i64Max else i64Min := by
  have hnarrow : narrow .saturate x =
    if i64Max < x then .ok (Word.ofInt i64Max) else .ok (Word.ofInt i64Min) := if_neg h
  rw [hnarrow]
  split_ifs
  · exact ⟨_, rfl, by decide⟩
  · exact ⟨_, rfl, by decide⟩

/-- Outside `I64` each policy does what it says (41_arithmetic.md R92, R93). -/
theorem narrow_under_each_policy_of_not_inI64 (h : ¬ InI64 x) :
    narrow .fault x = .error { cause := .arithmeticOverflow, info := 0#64 } ∧
    (∃ w, narrow .wrap x = .ok w ∧ w.toInt = (x + 2 ^ 63) % 2 ^ 64 - 2 ^ 63) ∧
    (∃ w, narrow .saturate x = .ok w ∧ w.toInt = if i64Max < x then i64Max else i64Min) :=
  ⟨narrow_fault_of_not_inI64 h, exists_narrow_wrap_of_not_inI64 h, exists_narrow_saturate_of_not_inI64 h⟩

end

/-- Settles O38: `add64` narrows the exact sum. -/
theorem addUnderEachPolicy : Obligations.AddUnderEachPolicy := fun _ _ =>
  ⟨fun hlow hhigh => exists_narrow_of_inI64 ⟨hlow, hhigh⟩, narrow_under_each_policy_of_not_inI64⟩

/-- Settles O39: `mul64` narrows the exact product. -/
theorem mulUnderEachPolicy : Obligations.MulUnderEachPolicy := fun _ _ =>
  ⟨fun hlow hhigh => exists_narrow_of_inI64 ⟨hlow, hhigh⟩, narrow_under_each_policy_of_not_inI64⟩

/-! ## Steps free of overflow agree under every policy (41_arithmetic.md R92) -/

/-- The second of two answers is the first, unless the first is the excepted one. For checks and steps the first is the
answer under `Fault`, the exception that it raises `ArithmeticOverflow`, and the second the answer under another
policy. -/
def AgreesUnless {α : Type} (excepted x y : α) : Prop := x ≠ excepted → y = x

theorem AgreesUnless.refl {α : Type} (excepted x : α) : AgreesUnless excepted x x := fun _ => rfl

/-- Two checks agree unless the first raises `ArithmeticOverflow`. -/
abbrev AgreesUnlessOverflow {α : Type} (x y : Check α) : Prop := AgreesUnless (.error overflowRaise) x y

/-- Two outcomes of a step from `s` agree unless the first takes `ArithmeticOverflow`. -/
abbrev StepsAgreeUnlessOverflow (s : State) (x y : Outcome) : Prop :=
  AgreesUnless (.next (s.takeFault overflowRaise)) x y

/-- Chains agree when their parts do: the first part's overflow is the chain's. -/
theorem AgreesUnless.bind {α β : Type} {x y : Check α} {f g : α → Check β} (hx : AgreesUnlessOverflow x y)
    (hf : ∀ a, AgreesUnlessOverflow (f a) (g a)) : AgreesUnlessOverflow (x >>= f) (y >>= g) := by
  cases x with
  | error r =>
    intro h
    rw [hx fun hr => h (by rw [hr]; rfl)]
    rfl
  | ok a =>
    rw [hx nofun]
    exact hf a

/-- Instructions agree when their checks do: an overflow raised is an overflow taken. -/
theorem AgreesUnless.settle {s : State} {x y : Check Outcome} (h : AgreesUnlessOverflow x y) :
    StepsAgreeUnlessOverflow s (settle s x) (settle s y) := by
  intro hne
  rw [h fun hx => hne (by rw [hx, settle_error])]

/-- The configuration with another overflow policy (00_scope.md R5). -/
def withPolicy (c : Config) (p : OverflowPolicy) : Config := { c with overflowPolicy := p }

/-- The one place where the policy matters: outside `I64`, where `Fault` raises `ArithmeticOverflow`. -/
theorem narrow_agrees (p : OverflowPolicy) (x : Int) : AgreesUnlessOverflow (narrow .fault x) (narrow p x) := by
  intro hne
  have hin : InI64 x := by_contra fun h => hne (narrow_fault_of_not_inI64 h)
  rw [narrow_of_inI64 _ hin, narrow_of_inI64 _ hin]

theorem add64_agrees (p : OverflowPolicy) (x y : Word) : AgreesUnlessOverflow (add64 .fault x y) (add64 p x y) :=
  narrow_agrees p _

theorem mul64_agrees (p : OverflowPolicy) (x y : Word) : AgreesUnlessOverflow (mul64 .fault x y) (mul64 p x y) :=
  narrow_agrees p _

section
variable (c : Config) (p : OverflowPolicy) (s : State)

theorem operandWord_agrees (k : Nat) :
    AgreesUnlessOverflow (operandWord (withPolicy c .fault) s k) (operandWord (withPolicy c p) s k) :=
  (add64_agrees p _ _).bind fun _ => .refl _ _

theorem successor_agrees (k : Nat) :
    AgreesUnlessOverflow (successor (withPolicy c .fault) s k) (successor (withPolicy c p) s k) :=
  (add64_agrees p _ _).bind fun _ => .refl _ _

theorem relativeAddress_agrees (w : Word) :
    AgreesUnlessOverflow (relativeAddress (withPolicy c .fault) s w) (relativeAddress (withPolicy c p) s w) :=
  (add64_agrees p _ _).bind fun _ => .refl _ _

theorem resolveRead_agrees (m : Mode) (w : Word) :
    AgreesUnlessOverflow (resolveRead (withPolicy c .fault) s m w) (resolveRead (withPolicy c p) s m w) := by
  cases m with
  | position => exact .refl _ _
  | immediate => exact .refl _ _
  | relative => exact (relativeAddress_agrees c p s w).bind fun _ => .refl _ _
  | undefined d => exact .refl _ _

theorem resolveWrite_agrees (m : Mode) (w : Word) :
    AgreesUnlessOverflow (resolveWrite (withPolicy c .fault) s m w) (resolveWrite (withPolicy c p) s m w) := by
  cases m with
  | position => exact .refl _ _
  | immediate => exact .refl _ _
  | relative => exact relativeAddress_agrees c p s w
  | undefined d => exact .refl _ _

theorem readOperand_agrees (k : Nat) (m : Mode) :
    AgreesUnlessOverflow (readOperand (withPolicy c .fault) s k m) (readOperand (withPolicy c p) s k m) :=
  AgreesUnless.bind (.refl _ _) fun mode =>
  (operandWord_agrees c p s k).bind fun w => resolveRead_agrees c p s mode w

theorem writeTarget_agrees (k : Nat) (m : Mode) :
    AgreesUnlessOverflow (writeTarget (withPolicy c .fault) s k m) (writeTarget (withPolicy c p) s k m) :=
  AgreesUnless.bind (.refl _ _) fun mode =>
  (operandWord_agrees c p s k).bind fun w => resolveWrite_agrees c p s mode w

theorem jumpTarget_agrees (taken : Bool) (target : Word) : AgreesUnlessOverflow
    (jumpTarget (withPolicy c .fault) taken target s) (jumpTarget (withPolicy c p) taken target s) := by
  cases taken with
  | true => exact .refl _ _
  | false => exact successor_agrees c p s 3

/-- ADD, MUL, LT and EQ agree when their operations do: the write reads nothing of the configuration but its size and
growth. -/
theorem computeAndStore_agrees {op op' : Word → Word → Check Word}
    (hop : ∀ x y, AgreesUnlessOverflow (op x y) (op' x y)) (a b dst : Mode) : StepsAgreeUnlessOverflow s
      (computeAndStore (withPolicy c .fault) op a b dst s) (computeAndStore (withPolicy c p) op' a b dst s) :=
  AgreesUnless.settle <|
    (readOperand_agrees c p s 1 a).bind fun v1 =>
    (readOperand_agrees c p s 2 b).bind fun v2 =>
    (writeTarget_agrees c p s 3 dst).bind fun _ =>
    (hop v1 v2).bind fun _ =>
    (successor_agrees c p s 4).bind fun _ => .refl _ _

theorem jumpWhen_agrees (taken : Word → Bool) (a target : Mode) : StepsAgreeUnlessOverflow s
    (jumpWhen (withPolicy c .fault) taken a target s) (jumpWhen (withPolicy c p) taken a target s) :=
  AgreesUnless.settle <|
    (readOperand_agrees c p s 1 a).bind fun v1 =>
    (readOperand_agrees c p s 2 target).bind fun v2 =>
    (jumpTarget_agrees c p s (taken v1) v2).bind fun _ => .refl _ _

theorem execUnder_agrees (i : Instr) :
    StepsAgreeUnlessOverflow s (execUnder (withPolicy c .fault) i s) (execUnder (withPolicy c p) i s) := by
  cases i with
  | add a b dst => exact computeAndStore_agrees c p s (add64_agrees p) a b dst
  | mul a b dst => exact computeAndStore_agrees c p s (mul64_agrees p) a b dst
  | lt a b dst => exact computeAndStore_agrees c p s (fun _ _ => .refl _ _) a b dst
  | eq a b dst => exact computeAndStore_agrees c p s (fun _ _ => .refl _ _) a b dst
  | jt a target => exact jumpWhen_agrees c p s isNonzero a target
  | jf a target => exact jumpWhen_agrees c p s isZero a target
  | inp dst => exact ((writeTarget_agrees c p s 1 dst).bind fun _ => .refl _ _).settle
  | out a =>
    exact ((readOperand_agrees c p s 1 a).bind fun _ => (successor_agrees c p s 2).bind fun _ => .refl _ _).settle
  | arb a =>
    exact ((readOperand_agrees c p s 1 a).bind fun v => (add64_agrees p s.rb v).bind fun _ =>
      (successor_agrees c p s 2).bind fun _ => .refl _ _).settle
  | halt => exact .refl _ _

theorem resumeInput_agrees :
    StepsAgreeUnlessOverflow s (resumeInput (withPolicy c .fault) s) (resumeInput (withPolicy c p) s) :=
  ((successor_agrees c p s 2).bind fun _ => .refl _ _).settle

/-- A step under any policy is the step under `Fault`, unless that one takes `ArithmeticOverflow`. -/
theorem stepUnder_agrees :
    StepsAgreeUnlessOverflow s (stepUnder (withPolicy c .fault) s) (stepUnder (withPolicy c p) s) := by
  unfold stepUnder advance
  cases s.state with
  | running =>
    unfold executeNext
    cases selectInstr (memRead s s.pc) with
    | none => exact .refl _ _
    | some i => exact execUnder_agrees c p s i
  | suspendedForInput =>
    cases s.pin.ready with
    | false => exact .refl _ _
    | true => exact resumeInput_agrees c p s
  | suspendedForOutput => exact .refl _ _
  | halted => exact .refl _ _
  | faulted => exact .refl _ _

end

/-- Settles O49: of all checks only `narrow` reads the policy, and it does so where `Fault` raises the overflow. -/
theorem faultFreeStepsAgreeUnderEveryPolicy : Obligations.FaultFreeStepsAgreeUnderEveryPolicy := by
  intro c p s t h hfree
  refine (stepUnder_agrees c p s fun hover => hfree ?_).trans h
  obtain rfl : t = s.takeFault overflowRaise := Host.Outcome.next.inj (h.symm.trans hover)
  exact ⟨rfl, rfl⟩

end Sys2Proof.Machine
end

section
/-! PROOFS. The statements of 42_compare.md: what LT and EQ store. -/

namespace Sys2Proof.Machine

/-! ## LT and EQ without a fault (42_compare.md R95 to R97) -/

/-- Settles O29: without a fault LT is the completed store of the signed comparison. -/
theorem ltStoresTheComparison : Obligations.LtStoresTheComparison := by
  intro a b dst s hpc h
  rw [exec_lt_of_no_fault hpc h, State.completeStore_eq]

/-- Settles O30: without a fault EQ is the completed store of the equality of the whole values. -/
theorem eqStoresTheComparison : Obligations.EqStoresTheComparison := by
  intro a b dst s hpc h
  rw [exec_eq_of_no_fault hpc h, State.completeStore_eq]

end Sys2Proof.Machine
end

section
/-! PROOFS. The statements of 43_jump.md: what JT and JF leave when taken and when not, and a taken jump to a negative
target. -/

namespace Sys2Proof.Machine

/-! ## Both jumps once their operands resolve (43_jump.md R100, R101, R103) -/

theorem nonneg_of_addressFault {x : Int} (h : addressFault x = none) : 0 ≤ x := by
  simpa [addressFault] using h

@[simp] theorem isNonzero_eq_true {v : Word} : isNonzero v = true ↔ v ≠ 0#64 := decide_eq_true_iff

@[simp] theorem isNonzero_eq_false {v : Word} : isNonzero v = false ↔ v = 0#64 := decide_eq_false_iff_not.trans not_not

@[simp] theorem isZero_eq_true {v : Word} : isZero v = true ↔ v = 0#64 := decide_eq_true_iff

@[simp] theorem isZero_eq_false {v : Word} : isZero v = false ↔ v ≠ 0#64 := decide_eq_false_iff_not

section
variable {taken : Word → Bool} {a target : Mode} {s : State} (hpc : 0 ≤ s.pc.toInt)
  (hops : firstOperandFault s 1 [(.read, a), (.read, target)] = none)
include hpc hops

/-- With both operands resolved, a jump sets `pc` to what `jumpTarget` answers for their values, or takes its fault. -/
theorem jumpWhen_of_operands : jumpWhen Config.chip taken a target s = settle s do
    let t ← jumpTarget Config.chip (taken (operandValue s 1 a)) (operandValue s 2 target) s
    return .next (s.setPc t) := by
  simp only [firstOperandFault, Option.or_eq_none_iff] at hops
  obtain ⟨ha, htarget, -⟩ := hops
  unfold jumpWhen
  rw [readOperand_of_no_fault hpc (by omega) ha, Check.ok_bind, readOperand_of_no_fault hpc (by omega) htarget,
    Check.ok_bind]

theorem jumpWhen_of_taken (ht : taken (operandValue s 1 a) = true) (hv : 0 ≤ (operandValue s 2 target).toInt) :
    jumpWhen Config.chip taken a target s = .next (s.setPc (operandValue s 2 target)) := by
  rw [jumpWhen_of_operands hpc hops, ht, jumpTarget, if_pos rfl, checkAddress_of_nonneg hv, Check.ok_bind,
    Check.pure_eq, settle_ok]

theorem jumpWhen_of_taken_neg (ht : taken (operandValue s 1 a) = true) (hv : (operandValue s 2 target).toInt < 0) :
    jumpWhen Config.chip taken a target s =
      .next (s.takeFault { cause := .addressError, info := operandValue s 2 target }) := by
  rw [jumpWhen_of_operands hpc hops, ht, jumpTarget, if_pos rfl]
  exact settle_bind_of_error _ (checkAddress_of_neg hv)

theorem jumpWhen_of_not_taken (ht : taken (operandValue s 1 a) = false) (hnext : InI64 (s.pc.toInt + (3 : Nat))) :
    jumpWhen Config.chip taken a target s = .next (s.setPc (s.pc + 3#64)) := by
  rw [jumpWhen_of_operands hpc hops, ht, jumpTarget, if_neg Bool.false_ne_true,
    successor_of_inI64 hpc (by omega) hnext, Check.ok_bind, Check.pure_eq, settle_ok]

/-- A jump without a fault: a taken one sets `pc` to its target, an untaken one to the successor address. -/
theorem jumpWhen_of_no_fault (htarget : taken (operandValue s 1 a) = true →
      addressFault (operandValue s 2 target).toInt = none)
    (hnext : taken (operandValue s 1 a) = false → rangeFault (s.pc.toInt + (3 : Nat)) = none) :
    jumpWhen Config.chip taken a target s =
      .next (s.setPc (if taken (operandValue s 1 a) then operandValue s 2 target else s.pc + 3#64)) := by
  cases ht : taken (operandValue s 1 a) with
  | true => exact jumpWhen_of_taken hpc hops ht (nonneg_of_addressFault (htarget ht))
  | false => exact jumpWhen_of_not_taken hpc hops ht (inI64_of_rangeFault (hnext ht))

end

/-- Settles O31: the own fault of the exact description is the target's when the jump is taken, and the successor is
checked when it is not. -/
theorem jumpsSetThePc : Obligations.JumpsSetThePc := by
  intro a target s hpc
  constructor
  · intro h
    obtain ⟨hops, hown, hsucc⟩ := instrFault_eq_none.mp h
    have hjump := jumpWhen_of_no_fault (taken := isNonzero) hpc hops (by simpa [ownFault] using hown)
      (by simpa [successorFault, fallsThrough, Instr.width, Instr.operands] using hsucc)
    simp only [isNonzero_eq_true] at hjump
    exact hjump
  · intro h
    obtain ⟨hops, hown, hsucc⟩ := instrFault_eq_none.mp h
    have hjump := jumpWhen_of_no_fault (taken := isZero) hpc hops (by simpa [ownFault] using hown)
      (by simpa [successorFault, fallsThrough, Instr.width, Instr.operands] using hsucc)
    simp only [isZero_eq_true] at hjump
    exact hjump

/-- Settles O26: only a taken jump checks its target, and its fault leaves `pc` at the jump. -/
theorem negativeTargetOfATakenJumpFaults : Obligations.NegativeTargetOfATakenJumpFaults := by
  intro a target s hpc hops hneg
  refine ⟨fun hv => ?_, fun hv => ?_, fun hmax => ?_⟩
  · exact ⟨_, jumpWhen_of_taken_neg hpc hops (isNonzero_eq_true.mpr hv) hneg, rfl, rfl, rfl, rfl, rfl⟩
  · exact ⟨_, jumpWhen_of_taken_neg hpc hops (isZero_eq_true.mpr hv) hneg, rfl, rfl, rfl, rfl, rfl⟩
  · have hnext : InI64 (s.pc.toInt + (3 : Nat)) := ⟨by unfold i64Min; omega, hmax⟩
    exact ⟨fun hv => jumpWhen_of_not_taken hpc hops (isNonzero_eq_false.mpr hv) hnext,
      fun hv => jumpWhen_of_not_taken hpc hops (isZero_eq_false.mpr hv) hnext⟩

end Sys2Proof.Machine
end

section
/-! PROOFS. The statements of 44_io.md: what IN and OUT leave, that an answered IN puts its value at the destination,
and that the result of a `run` does not depend on the bound. -/

namespace Sys2Proof.Machine

/-! ## IN and OUT without a fault (44_io.md R105, R106) -/

section
variable {s : State} (hpc : 0 ≤ s.pc.toInt)
include hpc

theorem exec_inp_of_no_fault {dst : Mode} (h : instrFault s (.inp dst) = none) : ∃ d : Word,
    exec (.inp dst) s = .next (s.requestInput d) ∧ 0 ≤ d.toInt ∧ d.toNat = operandAddress s 1 dst := by
  obtain ⟨hops, -, -⟩ := instrFault_eq_none.mp h
  have hdst : operandFault s 1 .write dst = none := (firstOperandFault_singleton s 1 _).symm.trans hops
  obtain ⟨d, hd, hnonneg, haddr⟩ := writeTarget_of_no_fault hpc (by omega) hdst
  refine ⟨d, ?_, hnonneg, haddr⟩
  change inpUnder Config.chip dst s = _
  rw [inpUnder, hd, Check.ok_bind, Check.pure_eq, settle_ok]

theorem exec_out_of_no_fault {a : Mode} (h : instrFault s (.out a) = none) :
    exec (.out a) s = .next ((s.surfaceOutput (operandValue s 1 a)).setPc (s.pc + 2#64)) := by
  obtain ⟨hops, -, hsucc⟩ := instrFault_eq_none.mp h
  have ha : operandFault s 1 .read a = none := (firstOperandFault_singleton s 1 _).symm.trans hops
  have hnext : InI64 (s.pc.toInt + (2 : Nat)) := inI64_of_rangeFault hsucc
  change outUnder Config.chip a s = _
  rw [outUnder, readOperand_of_no_fault hpc (by omega) ha, Check.ok_bind, successor_of_inI64 hpc (by omega) hnext,
    Check.ok_bind, Check.pure_eq, settle_ok]

end

/-- Settles O32: without a fault IN is the request for the address its operand resolves to. -/
theorem inRecordsTheRequest : Obligations.InRecordsTheRequest := by
  intro dst s hpc h
  obtain ⟨d, hexec, -, haddr⟩ := exec_inp_of_no_fault hpc h
  rw [hexec, ← haddr, BitVec.ofNat_toNat, BitVec.setWidth_eq, State.requestInput]

/-- Settles O33: without a fault OUT is its operand's value surfaced and `pc` at the successor address. -/
theorem outSurfacesTheValue : Obligations.OutSurfacesTheValue := by
  intro a s hpc h
  rw [exec_out_of_no_fault hpc h]
  rfl

/-! ## An IN, its answer and the resume (44_io.md R105, 46_host_operations.md R124, R125) -/

/-- A core that waits for an answer waits on (log entry 2). -/
theorem step_of_unanswered {s : State} (hs : s.state = .suspendedForInput) (hready : s.pin.ready = false) :
    step s = .next s := by
  simp [step, advance, hs, hready]

/-- A core whose request is answered resumes (log entry 2). -/
theorem step_of_answered {s : State} (hs : s.state = .suspendedForInput) (hready : s.pin.ready = true) :
    step s = resumeInput Config.chip s := by
  simp [step, advance, hs, hready]

/-- The request of an IN just executed takes the answer. -/
theorem supply_requestInput (s : State) (d v : Word) : supply (s.requestInput d) v = (s.requestInput d).latchInput v :=
  if_pos ⟨rfl, rfl, rfl⟩

/-- The answer to an IN and the resume: the deferred write of the value, `pc` moved by 2, the slot cleared. -/
theorem step_supply_requestInput {s : State} {d : Word} (hpc : 0 ≤ s.pc.toInt) (hd : 0 ≤ d.toInt)
    (hnext : InI64 (s.pc.toInt + (2 : Nat))) (v : Word) : step (supply (s.requestInput d) v) = .next
      (((((s.requestInput d).latchInput v).storeCell Config.chip d.toNat v).setPc (s.pc + 2#64)).clearInput.setRun
        .running) := by
  rw [supply_requestInput, step_of_answered rfl rfl]
  exact resumeInput_of_inI64 hpc hd hnext

/-- Settles O51: the request, the latched answer and the resume are named updates, and only the resume's write touches
memory, at the address recorded. -/
theorem answeredInputArrives : Obligations.AnsweredInputArrives := by
  intro dst s v hinv hr hdecode hfault hmax
  obtain ⟨-, ⟨hpc, -⟩, hwf, -⟩ := hinv
  obtain ⟨d, hexec, hnonneg, haddr⟩ := exec_inp_of_no_fault hpc hfault
  have hnext : InI64 (s.pc.toInt + (2 : Nat)) := ⟨by unfold i64Min; omega, hmax⟩
  rw [← haddr]
  exact ⟨s.requestInput d, _, (step_of_decode hr hdecode).trans hexec, rfl, step_of_unanswered rfl rfl,
    step_supply_requestInput hpc hnonneg hnext v, rfl, rfl, rfl, Memory.read_write_same hwf d.toNat v,
    fun _ hx => Memory.read_write_ne s.mem v hx⟩

/-! ## The bound of a run (44_io.md R108; log entry 12) -/

section
variable {c : Config} {s t : State} {r : RunResult} {n : Nat}

/-- The loop of `run` returns at once, or from the state one step on. -/
theorem runLoop_eq_returned (h : runLoop c n s = .returned r t) : stopResult s = some r ∧ t = s ∨
    ∃ m u, n = m + 1 ∧ s.state = .running ∧ stepUnder c s = .next u ∧ runLoop c m u = .returned r t := by
  unfold runLoop at h
  split at h
  · next hstop => cases h; exact .inl ⟨hstop, rfl⟩
  · next hrunning =>
    cases n with
    | zero => cases h
    | succ m =>
      dsimp only at h
      split at h
      · next u hstep => exact .inr ⟨m, u, rfl, stopResult_eq_none.mp hrunning, hstep, h⟩
      · next f _ => exact nomatch f
      · cases h

/-- `run` returns what its loop does: from a running core, or from what the resume leaves. -/
theorem run_eq_returned (h : run c n s = .returned r t) : s.state = .running ∧ runLoop c n s = .returned r t ∨
    s.state ≠ .running ∧ ∃ u, stepUnder c s = .next u ∧ runLoop c n u = .returned r t := by
  by_cases hr : s.state = .running
  · exact .inl ⟨hr, (run_of_running hr c n).symm.trans h⟩
  · unfold run at h
    split at h
    · exact absurd ‹_› hr
    · split at h
      · next u hstep => exact .inr ⟨hr, u, hstep, h⟩
      · next f _ => exact nomatch f
      · cases h

/-- A loop that returns does so under every larger bound, by induction on the bound it returned under. -/
theorem runLoop_add_of_returned (h : runLoop c n s = .returned r t) (more : Nat) :
    runLoop c (n + more) s = .returned r t := by
  induction n generalizing s with
  | zero =>
    rcases runLoop_eq_returned h with ⟨hstop, rfl⟩ | ⟨m, u, hm, -⟩
    · exact runLoop_of_stopped hstop c _
    · exact nomatch hm
  | succ n ih =>
    rcases runLoop_eq_returned h with ⟨hstop, rfl⟩ | ⟨m, u, hm, hr, hstep, hloop⟩
    · exact runLoop_of_stopped hstop c _
    · obtain rfl : n = m := Nat.succ.inj hm
      rw [Nat.succ_add, runLoop_of_next hr hstep, ih hloop]

end

/-- Settles O53: the resume takes nothing of the bound, and the loop returns the same under a larger one. -/
theorem runResultIgnoresTheBound : Obligations.RunResultIgnoresTheBound := by
  intro c fuel more s t r h
  rcases run_eq_returned h with ⟨hr, hloop⟩ | ⟨hr, u, hstep, hloop⟩
  · rw [run_of_running hr, runLoop_add_of_returned hloop]
  · rw [run_of_next hr hstep, runLoop_add_of_returned hloop]

end Sys2Proof.Machine
end

section
/-! PROOFS. The statements of 45_relbase_halt.md: what ARB leaves without a fault, and that HALT only halts. -/

namespace Sys2Proof.Machine

/-! ## ARB without a fault, and HALT (45_relbase_halt.md R112, R113) -/

/-- Without a fault the operand's value, the sum with the old base and the successor address are all answered. -/
theorem exec_arb_of_no_fault {a : Mode} {s : State} (hpc : 0 ≤ s.pc.toInt) (h : instrFault s (.arb a) = none) :
    exec (.arb a) s =
      .next ((s.setRb (Word.ofInt (s.rb.toInt + (operandValue s 1 a).toInt))).setPc (s.pc + 2#64)) := by
  obtain ⟨hops, hown, hsucc⟩ := instrFault_eq_none.mp h
  have ha : operandFault s 1 .read a = none := (firstOperandFault_singleton s 1 _).symm.trans hops
  have hsum : InI64 (s.rb.toInt + (operandValue s 1 a).toInt) := inI64_of_rangeFault hown
  have hnext : InI64 (s.pc.toInt + (2 : Nat)) := inI64_of_rangeFault hsucc
  change arbUnder Config.chip a s = _
  rw [arbUnder, readOperand_of_no_fault hpc (by omega) ha, Check.ok_bind, add64, narrow_of_inI64 _ hsum,
    Check.ok_bind, successor_of_inI64 hpc (by omega) hnext, Check.ok_bind, Check.pure_eq, settle_ok]

/-- Settles O34: without a fault ARB is the exact sum put in `rb` and `pc` at the successor address. -/
theorem arbAdjustsTheRelativeBase : Obligations.ArbAdjustsTheRelativeBase := by
  intro a s hpc h
  rw [exec_arb_of_no_fault hpc h]
  rfl

/-- HALT resolves no operand and no successor address, so no check comes before its one write. -/
theorem exec_halt (s : State) : exec .halt s = .next (s.setRun .halted) := rfl

/-- Settles O35: the run state is the only field the one write of HALT sets. -/
theorem haltOnlyHalts : Obligations.HaltOnlyHalts := by
  intro s
  rw [exec_halt, State.setRun]

end Sys2Proof.Machine
end

section
/-! PROOFS. The statements of 46_host_operations.md: what a step does outside `Running`, how `run` goes on and what it
returns, and what the host's other operations answer and leave alone. -/

namespace Sys2Proof.Machine

/-! ## A step outside `Running`: nothing, or a resume (46_host_operations.md R122 to R124; log entry 2) -/

section
variable {s : State}

/-- A core with nothing to resume stays as it is, under every configuration. -/
theorem stepUnder_of_not_resumable (h : s.state = .halted ∨ s.state = .faulted ∨
    (s.state = .suspendedForInput ∧ s.pin.ready = false)) (c : Config) : stepUnder c s = .next s := by
  rcases h with hs | hs | ⟨hs, hready⟩
  · simp only [stepUnder, advance, hs]
  · simp only [stepUnder, advance, hs]
  · simp [stepUnder, advance, hs, hready]

theorem stepUnder_of_suspendedForOutput (hs : s.state = .suspendedForOutput) (c : Config) :
    stepUnder c s = .next (s.clearOutput.setRun .running) := by
  simp only [stepUnder, advance, hs, resumeOutput]

/-- A resume leaves a core that runs on, or one whose successor address faulted. -/
theorem resumed_running_or_faulted {c : Config} {t : State} (h : stepUnder c s = .next t)
    (hs : s.state = .suspendedForInput ∧ s.pin.ready = true ∨ s.state = .suspendedForOutput) :
    t.state = .running ∨ t.state = .faulted := by
  rcases hs with ⟨hs, hready⟩ | hs
  · have hresume : resumeInput c s = .next t := by simpa [stepUnder, advance, hs, hready] using h
    rcases resumeInput_eq_next hresume with ⟨r, rfl⟩ | ⟨nxt, -, -, rfl⟩
    · exact .inr rfl
    · exact .inl rfl
  · rw [stepUnder_of_suspendedForOutput hs] at h
    cases h
    exact .inl rfl

/-- The resume of an IN whose successor is out of range takes the overflow, before its write. -/
theorem resumeInput_of_not_inI64 (hpc : 0 ≤ s.pc.toInt) (hnext : ¬ InI64 (s.pc.toInt + (2 : Nat))) :
    resumeInput Config.chip s = .next (s.takeFault overflowRaise) := by
  rw [resumeInput, successor_chip hpc (by omega), rangeFault_of_not_inI64 hnext]
  rfl

end

/-- Settles O19: none of these cores has anything to resume. -/
theorem stoppedCoresStayAsTheyAre : Obligations.StoppedCoresStayAsTheyAre := fun s h =>
  (stepUnder_chip s).symm.trans (stepUnder_of_not_resumable h Config.chip)

/-- Settles O20: the resume clears the slot's bit and sets the run state. -/
theorem resumeAfterOutputOnlyClearsTheSlot : Obligations.ResumeAfterOutputOnlyClearsTheSlot := fun s hs =>
  (stepUnder_chip s).symm.trans (stepUnder_of_suspendedForOutput hs Config.chip)

/-- Settles O21: in range the resume is the store at the recorded address and `pc` moved by 2. -/
theorem resumeAfterInputCompletesTheWrite : Obligations.ResumeAfterInputCompletesTheWrite := by
  intro s hs hready hpc hdst hmax
  have hnext : InI64 (s.pc.toInt + (2 : Nat)) := ⟨by unfold i64Min; omega, hmax⟩
  exact (step_of_answered hs hready).trans (resumeInput_of_inI64 hpc hdst hnext)

/-- Settles O22: a `pc` so close to the top is an address, and its successor is out of range. -/
theorem resumeAfterInputFaultsAtTheTop : Obligations.ResumeAfterInputFaultsAtTheTop := by
  intro s hs hready hmax
  have hpc : 0 ≤ s.pc.toInt := by unfold i64Max at hmax; omega
  have hnext : ¬ InI64 (s.pc.toInt + (2 : Nat)) := fun hin => absurd hin.2 (not_le.mpr hmax)
  exact (step_of_answered hs hready).trans (resumeInput_of_not_inI64 hpc hnext)

/-! ## What `run` returns, and how it goes on (46_host_operations.md R122, R131) -/

section
variable {s : State}

theorem stopResult_eq_halted : stopResult s = some .halted ↔ s.state = .halted := by
  unfold stopResult
  cases s.state <;> simp

theorem stopResult_eq_waitingForInput : stopResult s = some .waitingForInput ↔ s.state = .suspendedForInput := by
  unfold stopResult
  cases s.state <;> simp

theorem stopResult_eq_output {v : Word} :
    stopResult s = some (.output v) ↔ s.state = .suspendedForOutput ∧ v = s.pout.value := by
  unfold stopResult
  cases s.state <;> simp [eq_comm]

theorem stopResult_eq_fault {k : Cause} {i p w : Word} : stopResult s = some (.fault k i p w) ↔
    s.state = .faulted ∧ k = s.fault.cause ∧ i = s.fault.info ∧ p = s.fault.pc ∧ w = s.fault.iw := by
  unfold stopResult
  cases s.state <;> simp [eq_comm]

theorem exists_stopResult_of_not_running (h : s.state ≠ .running) : ∃ r, stopResult s = some r :=
  Option.ne_none_iff_exists'.mp fun hnone => h (stopResult_eq_none.mp hnone)

variable {c : Config} {n : Nat} {t : State} {r : RunResult}

theorem not_running_of_stopResult (h : stopResult s = some r) : s.state ≠ .running := fun hr =>
  nomatch h.symm.trans (stopResult_eq_none.mpr hr)

/-- The loop returns the result of the state it stops in, by induction on its bound. -/
theorem stopResult_of_runLoop (h : runLoop c n s = .returned r t) : stopResult t = some r := by
  induction n generalizing s with
  | zero =>
    rcases runLoop_eq_returned h with ⟨hstop, rfl⟩ | ⟨m, u, hm, -⟩
    · exact hstop
    · exact nomatch hm
  | succ n ih =>
    rcases runLoop_eq_returned h with ⟨hstop, rfl⟩ | ⟨m, u, hm, -, -, hloop⟩
    · exact hstop
    · obtain rfl : n = m := Nat.succ.inj hm
      exact ih hloop

theorem stopResult_of_run (h : run c n s = .returned r t) : stopResult t = some r := by
  rcases run_eq_returned h with ⟨-, hloop⟩ | ⟨-, u, -, hloop⟩
  · exact stopResult_of_runLoop hloop
  · exact stopResult_of_runLoop hloop

/-- A stopped core whose resume, or staying as it is, leaves a stopped core returns there. -/
theorem run_of_next_stopped (hr : s.state ≠ .running) (h : stepUnder c s = .next t) (hstop : stopResult t = some r) :
    run c n s = .returned r t :=
  (run_of_next hr h n).trans (runLoop_of_stopped hstop c n)

/-- A core with nothing to resume returns at once. -/
theorem run_of_not_resumable (h : s.state = .halted ∨ s.state = .faulted ∨
    (s.state = .suspendedForInput ∧ s.pin.ready = false)) (hstop : stopResult s = some r) :
    run c n s = .returned r s :=
  run_of_next_stopped (not_running_of_stopResult hstop) (stepUnder_of_not_resumable h c) hstop

end

/-- Settles O52: the result is `stopResult` of the state returned, which tells the stopped run states apart. -/
theorem runReturnsTheStopItReached : Obligations.RunReturnsTheStopItReached := by
  intro c fuel s t r h
  have hstop := stopResult_of_run h
  have hresult : ∀ q, r = q ↔ stopResult t = some q := fun q => by rw [hstop, Option.some.injEq]
  exact ⟨not_running_of_stopResult hstop, (hresult _).trans stopResult_eq_halted,
    (hresult _).trans stopResult_eq_waitingForInput, fun _ => (hresult _).trans stopResult_eq_output,
    fun _ _ _ _ => (hresult _).trans stopResult_eq_fault⟩

/-- Settles O60, run state by run state: one step of the loop, a resume before it, or nothing. -/
theorem runIsTheResumeAndTheSteps : Obligations.RunIsTheResumeAndTheSteps := by
  refine ⟨stepUnder_chip, fun c n s t h => ⟨?_, ?_, ?_, ?_, ?_, ?_⟩⟩
  · intro hs ht
    rw [run_of_running hs, runLoop_of_next hs h, run_of_running ht]
  · intro hs ht
    obtain ⟨r, hstop⟩ := exists_stopResult_of_not_running ht
    exact ⟨r, by rw [run_of_running hs, runLoop_of_next hs h, runLoop_of_stopped hstop]⟩
  · intro hs hready
    exact run_of_not_resumable (.inr (.inr ⟨hs, hready⟩)) (stopResult_eq_waitingForInput.mpr hs)
  · intro hs
    have hstopped : s.state ≠ .running := by rcases hs with ⟨hs, -⟩ | hs <;> simp [hs]
    refine ⟨resumed_running_or_faulted h hs, fun ht => ?_, fun ht => ?_⟩
    · rw [run_of_next hstopped h, run_of_running ht]
    · exact run_of_next_stopped hstopped h (stopResult_eq_fault.mpr ⟨ht, rfl, rfl, rfl, rfl⟩)
  · intro hs
    exact run_of_not_resumable (.inl hs) (stopResult_eq_halted.mpr hs)
  · intro hs
    exact run_of_not_resumable (.inr (.inl hs)) (stopResult_eq_fault.mpr ⟨hs, rfl, rfl, rfl, rfl⟩)

/-! ## supply, peek, poke and debugDump (46_host_operations.md R125 to R129) -/

section
variable {s : State}

theorem supply_of_request (hs : s.state = .suspendedForInput) (hvalid : s.pin.valid = true)
    (hready : s.pin.ready = false) (v : Word) : supply s v = s.latchInput v :=
  if_pos ⟨hs, hvalid, hready⟩

theorem supply_of_no_request (h : s.state ≠ .suspendedForInput ∨ s.pin.valid = false ∨ s.pin.ready = true) (v : Word) :
    supply s v = s := by
  refine if_neg fun ⟨hs, hvalid, hready⟩ => ?_
  rcases h with hs' | hvalid' | hready'
  · exact hs' hs
  · exact absurd hvalid (by simp [hvalid'])
  · exact absurd hready (by simp [hready'])

theorem supply_eq_latchInput_or_self (s : State) (v : Word) : supply s v = s.latchInput v ∨ supply s v = s :=
  ite_eq_or_eq _ _ _

theorem servePeek_of_nonneg {a : Word} (ha : 0 ≤ a.toInt) : servePeek s a = .reply (.value (memRead s a)) (some s) := by
  rw [servePeek, peek, if_neg (not_lt.mpr ha)]

theorem servePeek_of_neg {a : Word} (ha : a.toInt < 0) : servePeek s a = .reply (.addressError a) (some s) := by
  rw [servePeek, peek, if_pos ha]

theorem servePoke_of_neg {a : Word} (ha : a.toInt < 0) (c : Config) (v : Word) :
    servePoke c s a v = .reply (.addressError a) (some s) :=
  if_pos ha

/-- On the hardware a poke of an address is one store. -/
theorem servePoke_chip {a : Word} (ha : 0 ≤ a.toInt) (v : Word) :
    servePoke Config.chip s a v = .reply .done (some (s.storeCell Config.chip a.toNat v)) := by
  rw [servePoke, if_neg (not_lt.mpr ha), memWrite_chip ha]

/-- A poke that is answered has stored one cell, or nothing. -/
theorem servePoke_eq_reply {c : Config} {a v : Word} {r : Reply} {after : Option State}
    (h : servePoke c s a v = .reply r after) : after = some s ∨ after = some (s.storeCell c a.toNat v) := by
  unfold servePoke at h
  split at h
  · cases h; exact .inl rfl
  · split at h
    · next u hw =>
      cases h
      obtain ⟨-, rfl⟩ := memWrite_eq_ok.mp hw
      exact .inr rfl
    · cases h

end

/-- Settles O50: an unanswered request is latched, and a slot that `supply` latched or left is no longer one. -/
theorem supplyAnswersOneRequest : Obligations.SupplyAnswersOneRequest := by
  refine fun s v => ⟨fun hs hvalid hready => supply_of_request hs hvalid hready v,
    fun h => supply_of_no_request h v, fun v' => ?_⟩
  by_cases hreq : s.state = .suspendedForInput ∧ s.pin.valid = true ∧ s.pin.ready = false
  · obtain ⟨hs, hvalid, hready⟩ := hreq
    rw [supply_of_request hs hvalid hready]
    exact supply_of_no_request (.inr (.inr rfl)) v'
  · have hsame (w : Word) : supply s w = s := if_neg hreq
    rw [hsame, hsame]

/-- Settles O56, by the sign of the address. -/
theorem peekAnswersTheCell : Obligations.PeekAnswersTheCell := fun _ _ _ _ => ⟨servePeek_of_nonneg, servePeek_of_neg⟩

/-- Settles O57: on the hardware the poke is one store, which the next fetch at `pc` reads. -/
theorem pokeWritesOneCell : Obligations.PokeWritesOneCell := by
  refine fun fuel s a v hwf => ⟨fun ha => ⟨s.storeCell Config.chip a.toNat v, servePoke_chip ha v,
    Memory.read_write_same hwf a.toNat v, fun _ hx => Memory.read_write_ne s.mem v hx, rfl, ?_⟩,
    fun ha => servePoke_of_neg ha Config.chip v⟩
  intro hpc hr i hi
  exact step_of_stored hwf hr rfl (congrArg BitVec.toNat hpc.symm) hi

/-- Settles O58: the dump reads the addresses `0 .. msize-1` one by one. -/
theorem debugDumpAnswersTheStore : Obligations.DebugDumpAnswersTheStore := by
  refine fun c fuel s => ⟨debugDump s, rfl, ?_, fun k hk => ?_⟩
  · rw [debugDump, List.length_map, List.length_range]
  · rw [debugDump, List.getElem?_map, List.getElem?_range hk, Option.map_some]

/-! ## What the host cannot touch (46_host_operations.md R127, R130, R132; 60_exceptions.md R151, R152, R161) -/

section
variable {c : Config} {fuel : Nat} {op : HostOp} {s : State} {r : Reply} {after : Option State}

/-- Everything an operation but `new` and `run` can do: nothing, the answer to a request, or one cell stored. -/
theorem serve_eq_reply (hrun : op ≠ .run) (hnew : ∀ program, op ≠ .new program)
    (h : serve c fuel op (some s) = .reply r after) :
    after = some s ∨ (∃ v, after = some (s.latchInput v)) ∨ ∃ a v, after = some (s.storeCell c a v) := by
  cases op with
  | new program => exact absurd rfl (hnew program)
  | run => exact absurd rfl hrun
  | supply v =>
    cases h
    rcases supply_eq_latchInput_or_self s v with hsupply | hsupply <;> rw [hsupply]
    · exact .inr (.inl ⟨v, rfl⟩)
    · exact .inl rfl
  | peek a =>
    rcases lt_or_ge a.toInt 0 with ha | ha
    · cases (servePeek_of_neg ha).symm.trans h
      exact .inl rfl
    · cases (servePeek_of_nonneg ha).symm.trans h
      exact .inl rfl
  | poke a v => exact (servePoke_eq_reply h).imp_right fun hstore => .inr ⟨_, v, hstore⟩
  | debugDump => cases h; exact .inl rfl

/-- No operation but `new` moves a halted or faulted core: `run` finds nothing to do, and the others have no access. -/
theorem serve_of_halted_or_faulted (hs : s.state = .halted ∨ s.state = .faulted) (hnew : ∀ program, op ≠ .new program)
    (h : serve c fuel op (some s) = .reply r after) :
    ∃ t, after = some t ∧ t.state = s.state ∧ t.pc = s.pc ∧ t.rb = s.rb ∧ t.fault = s.fault := by
  by_cases hrun : op = .run
  · subst hrun
    obtain ⟨q, hstop⟩ : ∃ q, stopResult s = some q :=
      exists_stopResult_of_not_running (by rcases hs with hs | hs <;> simp [hs])
    have hreturn : run c fuel s = .returned q s := run_of_not_resumable (hs.imp_right .inl) hstop
    have hserve : serveRun c fuel s = .reply (.stopped q) (some s) := by rw [serveRun, hreturn]
    cases hserve.symm.trans h
    exact ⟨s, rfl, rfl, rfl, rfl, rfl⟩
  · rcases serve_eq_reply hrun hnew h with rfl | ⟨v, rfl⟩ | ⟨a, v, rfl⟩ <;> exact ⟨_, rfl, rfl, rfl, rfl, rfl⟩

end

/-- Settles O54: an answered request keeps the slot's destination and bit, and a store keeps all but memory. -/
theorem hostCannotTouchRegisters : Obligations.HostCannotTouchRegisters := by
  intro c fuel op s t r hrun hnew h
  rcases serve_eq_reply hrun hnew h with heq | ⟨v, heq⟩ | ⟨a, v, heq⟩ <;> cases heq <;>
    exact ⟨rfl, rfl, rfl, rfl, rfl, rfl, rfl⟩

/-- Settles O55, by induction on the sequence: the operation served first leaves such a core to the others. -/
theorem haltedAndFaultedAreForGood : Obligations.HaltedAndFaultedAreForGood := by
  intro c fuel ops
  induction ops with
  | nil =>
    intro s rs last _ _ h
    cases h
    exact ⟨s, rfl, rfl, rfl, rfl, rfl⟩
  | cons op rest ih =>
    intro s rs last hs hnew h
    unfold serveAll at h
    split at h
    · next r after hserve =>
      obtain ⟨u, rfl, hstate, hpc, hrb, hfault⟩ := serve_of_halted_or_faulted hs
        (fun program hop => hnew program (hop ▸ List.mem_cons_self)) hserve
      split at h
      · next rs' last' hrest =>
        cases h
        obtain ⟨t, ht, htstate, htpc, htrb, htfault⟩ := ih u rs' last (hstate ▸ hs)
          (fun program hmem => hnew program (List.mem_cons_of_mem op hmem)) hrest
        exact ⟨t, ht, htstate.trans hstate, htpc.trans hpc, htrb.trans hrb, htfault.trans hfault⟩
      · cases h
    · cases h

end Sys2Proof.Machine
end

section
/-! PROOFS. The statements of 60_exceptions.md: the first fault of an instruction is the one taken, which instruction
raises which fault, that a step always answers a next state, undefined opcodes, and several cores side by side. -/

namespace Sys2Proof.Machine

/-! ## The first fault is taken (60_exceptions.md R148) -/

/-- The fault of the exact description: the first of its three parts that has one (60_exceptions.md R148). -/
theorem instrFault_eq_some {s : State} {i : Instr} {r : Raise} : instrFault s i = some r ↔
    firstOperandFault s 1 i.operands = some r ∨ firstOperandFault s 1 i.operands = none ∧
      (ownFault s i = some r ∨ ownFault s i = none ∧ successorFault s i = some r) := by
  simp only [instrFault, Option.or_eq_some_iff]

/-- On the hardware an exact result with a fault of range raises it (41_arithmetic.md R92, R93). -/
theorem narrow_of_rangeFault {x : Int} {r : Raise} (h : rangeFault x = some r) :
    narrow Config.chip.overflowPolicy x = .error r := by
  rw [narrow_chip, h]

/-- When the first fault is that of an exact result or a later one, `narrow` raises it or answers a word. -/
theorem narrow_of_first_fault {x : Int} {r : Raise} {later : Prop}
    (h : rangeFault x = some r ∨ rangeFault x = none ∧ later) :
    narrow Config.chip.overflowPolicy x = .error r ∨ (∃ w, narrow Config.chip.overflowPolicy x = .ok w) ∧ later :=
  h.imp narrow_of_rangeFault (And.imp_left fun hnone => ⟨_, narrow_of_inI64 _ (inI64_of_rangeFault hnone)⟩)

theorem checkAddress_of_addressFault {w : Word} {r : Raise} (h : addressFault w.toInt = some r) :
    checkAddress w = .error r := by
  rw [checkAddress_word, h]

section
variable {s : State} (hpc : 0 ≤ s.pc.toInt) {r : Raise}
include hpc

theorem successor_of_rangeFault {k : Nat} (hk : k < 2 ^ 63) (h : rangeFault (s.pc.toInt + k) = some r) :
    successor Config.chip s k = .error r := by
  rw [successor_chip hpc hk, h]

/-- ADD, MUL, LT and EQ with all operands resolved take the fault of the operation, or of the successor address after
it. -/
theorem computeAndStore_of_fault {op : Word → Word → Check Word} {a b dst : Mode}
    (hops : firstOperandFault s 1 [(.read, a), (.read, b), (.write, dst)] = none)
    (h : op (operandValue s 1 a) (operandValue s 2 b) = .error r ∨
      (∃ v, op (operandValue s 1 a) (operandValue s 2 b) = .ok v) ∧ rangeFault (s.pc.toInt + (4 : Nat)) = some r) :
    computeAndStore Config.chip op a b dst s = .next (s.takeFault r) := by
  simp only [firstOperandFault, Option.or_eq_none_iff] at hops
  obtain ⟨ha, hb, hdst, -⟩ := hops
  obtain ⟨d, hd, -⟩ := writeTarget_of_no_fault hpc (by omega) hdst
  rw [computeAndStore, readOperand_of_no_fault hpc (by omega) ha, Check.ok_bind,
    readOperand_of_no_fault hpc (by omega) hb, Check.ok_bind, hd, Check.ok_bind]
  rcases h with hop | ⟨⟨v, hop⟩, hnext⟩
  · exact settle_bind_of_error _ hop
  · rw [hop, Check.ok_bind]
    exact settle_bind_of_error _ (successor_of_rangeFault hpc (by omega) hnext)

/-- JT and JF with both operands resolved take the fault of the target when taken, of the successor address when not. -/
theorem jumpWhen_of_fault {taken : Word → Bool} {a target : Mode}
    (hops : firstOperandFault s 1 [(.read, a), (.read, target)] = none)
    (h : taken (operandValue s 1 a) = true ∧ addressFault (operandValue s 2 target).toInt = some r ∨
      taken (operandValue s 1 a) = false ∧ rangeFault (s.pc.toInt + (3 : Nat)) = some r) :
    jumpWhen Config.chip taken a target s = .next (s.takeFault r) := by
  rw [jumpWhen_of_operands hpc hops]
  rcases h with ⟨ht, htarget⟩ | ⟨ht, hnext⟩
  · rw [ht, jumpTarget, if_pos rfl]
    exact settle_bind_of_error _ (checkAddress_of_addressFault htarget)
  · rw [ht, jumpTarget, if_neg Bool.false_ne_true]
    exact settle_bind_of_error _ (successor_of_rangeFault hpc (by omega) hnext)

/-- OUT with its operand resolved takes the fault of the successor address. -/
theorem outUnder_of_fault {a : Mode} (hop : operandFault s 1 .read a = none)
    (h : rangeFault (s.pc.toInt + (2 : Nat)) = some r) : outUnder Config.chip a s = .next (s.takeFault r) := by
  rw [outUnder, readOperand_of_no_fault hpc (by omega) hop, Check.ok_bind]
  exact settle_bind_of_error _ (successor_of_rangeFault hpc (by omega) h)

/-- ARB with its operand resolved takes the fault of the new base, or of the successor address after it. -/
theorem arbUnder_of_fault {a : Mode} (hop : operandFault s 1 .read a = none)
    (h : rangeFault (s.rb.toInt + (operandValue s 1 a).toInt) = some r ∨
      rangeFault (s.rb.toInt + (operandValue s 1 a).toInt) = none ∧ rangeFault (s.pc.toInt + (2 : Nat)) = some r) :
    arbUnder Config.chip a s = .next (s.takeFault r) := by
  rw [arbUnder, readOperand_of_no_fault hpc (by omega) hop, Check.ok_bind]
  rcases narrow_of_first_fault h with hsum | ⟨⟨base, hsum⟩, hnext⟩
  · exact settle_bind_of_error _ hsum
  · rw [add64, hsum, Check.ok_bind]
    exact settle_bind_of_error _ (successor_of_rangeFault hpc (by omega) hnext)

/-- An instruction with all operands resolved takes the fault of its own computation, or of the successor address after
it (60_exceptions.md R148, (3) and (4)). -/
theorem exec_of_fault_after_operands {i : Instr} (hops : firstOperandFault s 1 i.operands = none)
    (h : ownFault s i = some r ∨ ownFault s i = none ∧ successorFault s i = some r) :
    exec i s = .next (s.takeFault r) := by
  cases i with
  | add a b dst => exact computeAndStore_of_fault hpc hops (narrow_of_first_fault h)
  | mul a b dst => exact computeAndStore_of_fault hpc hops (narrow_of_first_fault h)
  | lt a b dst => exact computeAndStore_of_fault hpc hops (h.imp (nomatch ·) (And.imp_left fun _ => ⟨_, rfl⟩))
  | eq a b dst => exact computeAndStore_of_fault hpc hops (h.imp (nomatch ·) (And.imp_left fun _ => ⟨_, rfl⟩))
  | jt a target =>
    refine jumpWhen_of_fault hpc hops ?_
    by_cases hv : operandValue s 1 a = 0#64
    · exact .inr (by simpa [ownFault, successorFault, fallsThrough, Instr.width, Instr.operands, hv] using h)
    · exact .inl (by simpa [ownFault, successorFault, fallsThrough, hv] using h)
  | jf a target =>
    refine jumpWhen_of_fault hpc hops ?_
    by_cases hv : operandValue s 1 a = 0#64
    · exact .inl (by simpa [ownFault, successorFault, fallsThrough, hv] using h)
    · exact .inr (by simpa [ownFault, successorFault, fallsThrough, Instr.width, Instr.operands, hv] using h)
  | inp dst => exact h.elim (nomatch ·) fun ⟨_, hsucc⟩ => nomatch hsucc
  | out a =>
    rw [Instr.operands, firstOperandFault_singleton] at hops
    exact outUnder_of_fault hpc hops (h.elim (nomatch ·) And.right)
  | arb a =>
    rw [Instr.operands, firstOperandFault_singleton] at hops
    exact arbUnder_of_fault hpc hops h
  | halt => exact h.elim (nomatch ·) fun ⟨_, hsucc⟩ => nomatch hsucc

end

/-- Settles O24: the checks are made in the order of the description, so the first that fails is the one raised. -/
theorem firstFaultIsTaken : Obligations.FirstFaultIsTaken := by
  intro i s r hpc h
  rcases instrFault_eq_some.mp h with hoperand | ⟨hops, hlater⟩
  · exact exec_of_operandFault hpc hoperand
  · exact exec_of_fault_after_operands hpc hops hlater

/-! ## Which check raises which fault (60_exceptions.md R142 to R147) -/

/-- Every cause a check can raise is among the given ones. -/
def RaisesOnly {α : Type} (causes : List Cause) (x : Check α) : Prop := ∀ r, x = .error r → r.cause ∈ causes

/-- The causes of an instruction that stores nothing, in 60_exceptions.md R147. -/
def nonStoringCauses : List Cause := [.addressError, .invalidMode, .arithmeticOverflow]

/-- The causes of an instruction that stores, in 60_exceptions.md R147. -/
def storingCauses : List Cause := .invalidWriteTarget :: nonStoringCauses

/-- The row of an instruction in the table of 60_exceptions.md R147. -/
def causesOf : Instr → List Cause
  | .add _ _ _ => storingCauses
  | .mul _ _ _ => storingCauses
  | .inp _ => storingCauses
  | .out _ => nonStoringCauses
  | .jt _ _ => nonStoringCauses
  | .jf _ _ => nonStoringCauses
  | .lt _ _ _ => storingCauses
  | .eq _ _ _ => storingCauses
  | .arb _ => nonStoringCauses
  | .halt => []

section
variable {α β : Type} {causes : List Cause}

theorem RaisesOnly.ok (a : α) : RaisesOnly causes (.ok a : Check α) := fun _ h => nomatch h

theorem RaisesOnly.error {r : Raise} (h : r.cause ∈ causes) : RaisesOnly causes (.error r : Check α) :=
  fun _ hr => Except.error.inj hr ▸ h

/-- A chain raises what its parts raise. -/
theorem RaisesOnly.bind {x : Check α} {f : α → Check β} (hx : RaisesOnly causes x)
    (hf : ∀ a, RaisesOnly causes (f a)) : RaisesOnly causes (x >>= f) := by
  intro r h
  rcases Check.bind_eq_error.mp h with hraise | ⟨a, -, hraise⟩
  · exact hx r hraise
  · exact hf a r hraise

theorem RaisesOnly.mono {wider : List Cause} {x : Check α} (hsub : causes ⊆ wider) (hx : RaisesOnly causes x) :
    RaisesOnly wider x := fun r h => hsub (hx r h)

end

section
variable (c : Config) (s : State)

theorem narrow_raisesOnly (p : OverflowPolicy) (x : Int) : RaisesOnly nonStoringCauses (narrow p x) := by
  unfold narrow
  split
  · exact .ok _
  · cases p with
    | fault => exact .error (by decide)
    | wrap => exact .ok _
    | saturate => dsimp only; split <;> exact .ok _

theorem checkAddress_raisesOnly (a : Word) : RaisesOnly nonStoringCauses (checkAddress a) := by
  unfold checkAddress
  split
  · exact .error (by simp [nonStoringCauses])
  · exact .ok _

theorem checkMode_raisesOnly (m : Mode) : RaisesOnly nonStoringCauses (checkMode m) := by
  cases m with
  | undefined d => exact .error (by simp [nonStoringCauses])
  | position => exact .ok _
  | immediate => exact .ok _
  | relative => exact .ok _

theorem operandWord_raisesOnly (k : Nat) : RaisesOnly nonStoringCauses (operandWord c s k) :=
  (narrow_raisesOnly _ _).bind fun sum => (checkAddress_raisesOnly sum).bind fun _ => .ok _

theorem successor_raisesOnly (k : Nat) : RaisesOnly nonStoringCauses (successor c s k) :=
  (narrow_raisesOnly _ _).bind checkAddress_raisesOnly

theorem relativeAddress_raisesOnly (w : Word) : RaisesOnly nonStoringCauses (relativeAddress c s w) :=
  (narrow_raisesOnly _ _).bind checkAddress_raisesOnly

theorem resolveRead_raisesOnly (m : Mode) (w : Word) : RaisesOnly nonStoringCauses (resolveRead c s m w) := by
  cases m with
  | position => exact (checkAddress_raisesOnly w).bind fun _ => .ok _
  | immediate => exact .ok _
  | relative => exact (relativeAddress_raisesOnly c s w).bind fun _ => .ok _
  | undefined d => exact .error (by simp [nonStoringCauses])

theorem nonStoringCauses_subset : nonStoringCauses ⊆ storingCauses := List.subset_cons_self _ _

/-- Only here is a write operand in immediate mode refused (60_exceptions.md R143). -/
theorem resolveWrite_raisesOnly (m : Mode) (w : Word) : RaisesOnly storingCauses (resolveWrite c s m w) := by
  cases m with
  | position => exact (checkAddress_raisesOnly w).mono nonStoringCauses_subset
  | immediate => exact .error (by simp [storingCauses])
  | relative => exact (relativeAddress_raisesOnly c s w).mono nonStoringCauses_subset
  | undefined d => exact .error (by simp [storingCauses, nonStoringCauses])

theorem readOperand_raisesOnly (k : Nat) (m : Mode) : RaisesOnly nonStoringCauses (readOperand c s k m) :=
  (checkMode_raisesOnly m).bind fun mode => (operandWord_raisesOnly c s k).bind (resolveRead_raisesOnly c s mode)

theorem writeTarget_raisesOnly (k : Nat) (m : Mode) : RaisesOnly storingCauses (writeTarget c s k m) :=
  ((checkMode_raisesOnly m).mono nonStoringCauses_subset).bind fun mode =>
    ((operandWord_raisesOnly c s k).mono nonStoringCauses_subset).bind (resolveWrite_raisesOnly c s mode)

theorem jumpTarget_raisesOnly (taken : Bool) (target : Word) :
    RaisesOnly nonStoringCauses (jumpTarget c taken target s) := by
  cases taken with
  | true => exact checkAddress_raisesOnly target
  | false => exact successor_raisesOnly c s 3

end

/-! ## Every instruction answers a next state, and faults by its own causes only (60_exceptions.md R147, R150) -/

/-- A next state is answered, one that is not `Faulted` or whose fault has one of the given causes. -/
def AnswersWith (causes : List Cause) (o : Outcome) : Prop :=
  ∃ t, o = .next t ∧ (t.state = .faulted → t.fault.cause ∈ causes)

theorem AnswersWith.next {causes : List Cause} {t : State} (ht : t.state ≠ .faulted) : AnswersWith causes (.next t) :=
  ⟨t, rfl, fun h => absurd h ht⟩

/-- A check at the front of an instruction: its fault is taken, or the rest goes on with its value. -/
theorem AnswersWith.settle_bind {α : Type} {causes : List Cause} {s : State} {x : Check α} {f : α → Check Outcome}
    (hx : RaisesOnly causes x) (hf : ∀ a, x = .ok a → AnswersWith causes (settle s (f a))) :
    AnswersWith causes (settle s (x >>= f)) := by
  cases hcheck : x with
  | error r => exact ⟨s.takeFault r, rfl, fun _ => hx r hcheck⟩
  | ok a => exact hf a hcheck

section
variable {s : State} (hs : s.state ≠ .faulted)
include hs

/-- The write of ADD, MUL, LT and EQ is never refused: the address they resolve is not negative (20_memory.md R45). -/
theorem computeAndStore_answersWith {op : Word → Word → Check Word}
    (hop : ∀ x y, RaisesOnly nonStoringCauses (op x y)) (a b dst : Mode) :
    AnswersWith storingCauses (computeAndStore Config.chip op a b dst s) := by
  refine .settle_bind ((readOperand_raisesOnly _ s 1 a).mono nonStoringCauses_subset) fun v1 _ => ?_
  refine .settle_bind ((readOperand_raisesOnly _ s 2 b).mono nonStoringCauses_subset) fun v2 _ => ?_
  refine .settle_bind (writeTarget_raisesOnly _ s 3 dst) fun d hd => ?_
  refine .settle_bind ((hop v1 v2).mono nonStoringCauses_subset) fun v _ => ?_
  refine .settle_bind ((successor_raisesOnly _ s 4).mono nonStoringCauses_subset) fun nxt _ => ?_
  rw [Check.pure_eq, settle_ok, commitStore_of_lt (toNat_lt_of_nonneg (writeTarget_nonneg hd))]
  exact .next hs

theorem jumpWhen_answersWith (taken : Word → Bool) (a target : Mode) :
    AnswersWith nonStoringCauses (jumpWhen Config.chip taken a target s) := by
  refine .settle_bind (readOperand_raisesOnly _ s 1 a) fun v1 _ => ?_
  refine .settle_bind (readOperand_raisesOnly _ s 2 target) fun v2 _ => ?_
  exact .settle_bind (jumpTarget_raisesOnly _ s (taken v1) v2) fun nxt _ => .next hs

/-- On the hardware every instruction answers a next state and raises only what its row of the table of
60_exceptions.md R147 lists. -/
theorem exec_answersWith (i : Instr) : AnswersWith (causesOf i) (exec i s) := by
  cases i with
  | add a b dst => exact computeAndStore_answersWith hs (fun _ _ => narrow_raisesOnly _ _) a b dst
  | mul a b dst => exact computeAndStore_answersWith hs (fun _ _ => narrow_raisesOnly _ _) a b dst
  | lt a b dst => exact computeAndStore_answersWith hs (fun _ _ => .ok _) a b dst
  | eq a b dst => exact computeAndStore_answersWith hs (fun _ _ => .ok _) a b dst
  | jt a target => exact jumpWhen_answersWith hs isNonzero a target
  | jf a target => exact jumpWhen_answersWith hs isZero a target
  | inp dst => exact .settle_bind (writeTarget_raisesOnly _ s 1 dst) fun d _ => .next (by simp)
  | out a =>
    refine .settle_bind (readOperand_raisesOnly _ s 1 a) fun v _ => ?_
    exact .settle_bind (successor_raisesOnly _ s 2) fun nxt _ => .next (by simp)
  | arb a =>
    refine .settle_bind (readOperand_raisesOnly _ s 1 a) fun v _ => ?_
    refine .settle_bind (narrow_raisesOnly _ _) fun base _ => ?_
    exact .settle_bind (successor_raisesOnly _ s 2) fun nxt _ => .next hs
  | halt => exact .next (by simp)

end

theorem invalidOpcode_notMem_causesOf (i : Instr) : Cause.invalidOpcode ∉ causesOf i := by
  cases i <;> simp [causesOf, storingCauses, nonStoringCauses]

/-- The column `InvalidWriteTarget` of the table is marked in the rows of the storing instructions only. -/
theorem opcode_of_invalidWriteTarget_mem_causesOf {i : Instr} (h : Cause.invalidWriteTarget ∈ causesOf i) :
    i.opcode ∈ [1, 2, 3, 7, 8] := by
  cases i <;> simp [causesOf, nonStoringCauses, Instr.opcode] at h ⊢

/-- Settles O25: the rows of the table list no `InvalidOpcode`, HALT's is empty, and only those of the storing
instructions list `InvalidWriteTarget`. -/
theorem instructionsRaiseOnlyTheirFaults : Obligations.InstructionsRaiseOnlyTheirFaults := by
  intro i s t hs h ht
  obtain ⟨u, hu, hcause⟩ := exec_answersWith hs i
  obtain rfl : t = u := Host.Outcome.next.inj (h.symm.trans hu)
  have hrow : t.fault.cause ∈ causesOf i := hcause ht
  refine ⟨?_, ?_, fun hwrite => opcode_of_invalidWriteTarget_mem_causesOf (hwrite ▸ hrow)⟩
  · rintro rfl
    exact List.not_mem_nil hrow
  · intro hopcode
    exact invalidOpcode_notMem_causesOf i (hopcode ▸ hrow)

/-- The resume of an IN answers a next state: the recorded address is not negative (46_host_operations.md R124). -/
theorem exists_resumeInput_eq_next {s : State} (hdst : 0 ≤ s.pin.dst.toInt) :
    ∃ t, resumeInput Config.chip s = .next t := by
  cases hnext : successor Config.chip s 2 with
  | error r => exact ⟨_, settle_bind_of_error _ hnext⟩
  | ok nxt => exact ⟨_, by rw [resumeInput, hnext, memWrite_chip hdst]; rfl⟩

/-- Settles O15: no write is refused on the hardware, because the address of a store and the recorded address of an IN
are not negative. -/
theorem stepAlwaysAnswersANextState : Obligations.StepAlwaysAnswersANextState := by
  rintro s ⟨⟨hin, -⟩, ⟨-, hdst, -⟩, -⟩
  have hanswer {u : State} (h : stepUnder Config.chip s = .next u) : ∃ t, step s = .next t :=
    ⟨u, (stepUnder_chip s).symm.trans h⟩
  cases hs : s.state with
  | running =>
    cases hi : selectInstr (memRead s s.pc) with
    | none => exact ⟨_, step_of_selectInstr_none hs hi⟩
    | some i =>
      obtain ⟨t, ht, -⟩ := exec_answersWith (s := s) (by simp [hs]) i
      exact ⟨t, (step_of_selectInstr hs hi).trans ht⟩
  | suspendedForInput =>
    cases hready : s.pin.ready with
    | false => exact ⟨s, step_of_unanswered hs hready⟩
    | true =>
      rw [step_of_answered hs hready]
      exact exists_resumeInput_eq_next (hdst (hin.mp hs))
  | suspendedForOutput => exact hanswer (stepUnder_of_suspendedForOutput hs _)
  | halted => exact hanswer (stepUnder_of_not_resumable (.inl hs) _)
  | faulted => exact hanswer (stepUnder_of_not_resumable (.inr (.inl hs)) _)

/-! ## Undefined opcodes (60_exceptions.md R142) -/

/-- Settles O17: the truncated remainder has the sign of the word, and such an opcode selects no instruction. -/
theorem stepTakesInvalidOpcode : Obligations.StepTakesInvalidOpcode := by
  rintro s op hr rfl hdigit hhalt
  refine ⟨fun hpos => ?_, fun hneg => ?_, step_of_selectInstr_none hr (selectInstr_eq_none.mpr ⟨hdigit, hhalt⟩)⟩
  · rw [Int.tmod_eq_emod_of_nonneg hpos] at hdigit hhalt ⊢
    omega
  · rw [Int.tmod_eq_emod]
    split <;> omega

/-! ## Several cores (60_exceptions.md R164, 46_host_operations.md R133) -/

/-- An operation served on core `k` of several puts what it leaves of that core in its place. -/
theorem serveAt_eq_some {c : Config} {fuel : Nat} {op : HostOp} {k : Nat} {cores after : List (Option State)}
    {r : Reply} (h : serveAt c fuel op k cores = some (r, after)) :
    ∃ core left, cores[k]? = some core ∧ serve c fuel op core = .reply r left ∧ after = cores.set k left := by
  induction cores generalizing k after with
  | nil => cases k <;> cases h
  | cons core others ih =>
    cases k with
    | zero =>
      unfold serveAt at h
      split at h
      · next left hserve => cases h; exact ⟨core, left, rfl, hserve, rfl⟩
      · cases h
    | succ k =>
      unfold serveAt at h
      split at h
      · next rest hrest =>
        cases h
        obtain ⟨target, left, hcore, hserve, rfl⟩ := ih hrest
        exact ⟨target, left, hcore, hserve, rfl⟩
      · cases h

/-- Settles O59: replacing element `k` of a list leaves every other element. -/
theorem otherCoresAreUntouched : Obligations.OtherCoresAreUntouched := by
  intro c fuel op k j cores after r h hj
  obtain ⟨-, left, -, -, rfl⟩ := serveAt_eq_some h
  exact List.getElem?_set_ne hj.symm

end Sys2Proof.Machine
end
